-- ==== Sys2Proof/Word.lean ====
section
/-! DEFINITION. The machine's units of data: a byte, a 16-bit value, a payload (00_scope.md R7, 10_state.md R10). -/

namespace Sys2Proof

/-- "A **byte** is an unsigned integer 0 to 255" (00_scope.md R7). -/
abbrev Byte := BitVec 8

/-- A 16-bit unsigned value: the CRC field and the LONG length field (20_memory.md R28). -/
abbrev Half := BitVec 16

/-- A byte string: a payload handed to the sink, or an operand of the encoder (00_scope.md R7). -/
abbrev Bytes := List Byte

end Sys2Proof
end

