-- ==== Sys2Proof/Config.lean ====
section
/-! DEFINITION. The implementation parameters of 00_scope.md R6. -/

namespace Sys2Proof.Config

/-- The largest legal capacity: `1 <= N <= 65535` is required (00_scope.md R6, 92_eei_decisions.md D7). -/
def maxCapacity : Nat := 65535

/-- N of the instance `State.reset` names. N is OPEN (R6): the machine carries it in `State.cap`, every meaning works at
every N, and only `State.reset` uses this value. DESIGN CHOICE (log entry 1, unsafe): 16, the N of all four programs of
95_test_vectors.md section 3. -/
def capacity : Nat := 16

/-- What a byte of the buffer reads as that is not listed in `State.buf`. The spec leaves the contents after reset open: "any
value (the model may choose any value, and no theorem may depend on it)" (93_implementation_defined.md U7, 10_state.md R20).
DESIGN CHOICE (log entry 6, unsafe): 0x00. Every other content is a list of cells (`State.resetWith`). -/
def resetByte : Byte := 0x00

/-- `SIZE_HINT_MAX`, the largest payload length SIZE_HINT accepts (00_scope.md R6, 43_encoder.md R106). -/
def sizeHintMax : Nat := 512

/-- The SHORT selector (30_encoding.md R41). -/
def selShort : Byte := 0x02

/-- The LONG selector (30_encoding.md R41). -/
def selLong : Byte := 0x03

/-- The terminator, "must equal `0x03`" (30_encoding.md R49). -/
def terminator : Byte := 0x03

/-- The CRC polynomial (40_crc.md R60). -/
def crcPoly : Half := 0x1021

/-- The CRC's initial value (40_crc.md R60). -/
def crcInit : Half := 0x0000

/-- The CRC's final XOR: none. PRESUMED (log entry 2): the spec marks it as general knowledge (40_crc.md R61, 93 G1). -/
def crcFinalXor : Half := 0x0000

end Sys2Proof.Config
end

