-- ==== Sys2Proof/Syntax.lean ====
section
/-! DEFINITION. One constructor per row of spec/opcode_table.json: the eleven selector classes of a candidate frame
(30_encoding.md R41) and the six operations of the CORE (00_scope.md R8). -/

namespace Sys2Proof

/-- The instructions: a candidate frame's header, read at `read_idx` by the scanner (the opcode is the selector byte, R8),
or an operation driven at the interface. A selector class with bits that do not matter carries exactly those bits. -/
inductive Instr where
  /-- SHORT: selector 0x02, then the 1-byte length `L` (30_encoding.md R42). -/
  | short (len : Byte)
  /-- LONG: selector 0x03, then the 2-byte big-endian length `L` (30_encoding.md R43). -/
  | long (len : Half)
  /-- RESERVED_04: selector 0x04, no layout behind it (30_encoding.md R44). -/
  | reserved04
  /-- INVALID_00_01: selector `0000000x` (30_encoding.md R45, R54). -/
  | invalid0001 (x : BitVec 1)
  /-- INVALID_05: selector `00000101`. -/
  | invalid05
  /-- INVALID_06_07: selector `0000011x`. -/
  | invalid0607 (x : BitVec 1)
  /-- INVALID_08_0F: selector `00001xxx`. -/
  | invalid080F (x : BitVec 3)
  /-- INVALID_10_1F: selector `0001xxxx`. -/
  | invalid101F (x : BitVec 4)
  /-- INVALID_20_3F: selector `001xxxxx`. -/
  | invalid203F (x : BitVec 5)
  /-- INVALID_40_7F: selector `01xxxxxx`. -/
  | invalid407F (x : BitVec 6)
  /-- INVALID_80_FF: selector `1xxxxxxx`. -/
  | invalid80FF (x : BitVec 7)
  /-- RESET: no operand (70_reset_and_hazards.md R130). -/
  | reset
  /-- EAT_BYTE: the next byte of the stream (42_ingestion.md R80). -/
  | eatByte (byte : Byte)
  /-- DECODE_FRAME: how many bytes from `read_idx` on may be inspected (41_frame_scanner.md R65). -/
  | decodeFrame (dataLen : Nat)
  /-- CRC16: a byte string of any length (40_crc.md R60). -/
  | crc16 (s : Bytes)
  /-- SIZE_HINT: a payload length, a natural number of any size (43_encoder.md R100). -/
  | sizeHint (frameLen : Nat)
  /-- COMMIT_FRAME: the payload, the destination's bytes, and the matching decoder's capacity N (43_encoder.md R102). -/
  | commitFrame (payload dest : Bytes) (capacity : Nat)
  deriving DecidableEq, Repr

end Sys2Proof
end

