-- ==== Sys2Proof/WellFormed.lean ====
section
/-! DEFINITION. Which instructions are well formed: the legal lengths of 30_encoding.md R47 and the legal capacities of
00_scope.md R6. An ill-formed header is still decoded and has its meaning: the scanner rejects it. -/

namespace Sys2Proof

/-- `1 <= N <= 65535` (00_scope.md R6; outside it: refused, 93_implementation_defined.md U6). -/
def capacityLegal (n : Nat) : Bool := 1 ≤ n && n ≤ Config.maxCapacity

/-- SHORT: "`L == 0` is invalid"; LONG: "valid only if `L >= 255`" (30_encoding.md R47); COMMIT_FRAME's N is a legal
capacity. Every other operand is free. -/
def Instr.wellFormed : Instr → Bool
  | .short len => len != 0
  | .long len => 255 ≤ len.toNat
  | .reserved04 => true
  | .invalid0001 _ => true
  | .invalid05 => true
  | .invalid0607 _ => true
  | .invalid080F _ => true
  | .invalid101F _ => true
  | .invalid203F _ => true
  | .invalid407F _ => true
  | .invalid80FF _ => true
  | .reset => true
  | .eatByte _ => true
  | .decodeFrame _ => true
  | .crc16 _ => true
  | .sizeHint _ => true
  | .commitFrame _ _ n => capacityLegal n

/-- Is this row an operation of the interface? Operations "are not encoded in bits" (30_encoding.md R54). -/
def Instr.isOperation : Instr → Bool
  | .short _ => false
  | .long _ => false
  | .reserved04 => false
  | .invalid0001 _ => false
  | .invalid05 => false
  | .invalid0607 _ => false
  | .invalid080F _ => false
  | .invalid101F _ => false
  | .invalid203F _ => false
  | .invalid407F _ => false
  | .invalid80FF _ => false
  | .reset => true
  | .eatByte _ => true
  | .decodeFrame _ => true
  | .crc16 _ => true
  | .sizeHint _ => true
  | .commitFrame _ _ _ => true

end Sys2Proof
end

