-- ==== Sys2Proof/Decode.lean ====
section
/-! DEFINITION. The decoder and the encoder of a candidate's header (30_encoding.md R41 to R45, R51), and the table-word
reader the host asks. Every one of the 256 selector values has a row, so decoding rejects only for want of bytes. -/

namespace Sys2Proof

/-! ### Byte order -/

/-- `be16(hi, lo) = hi * 256 + lo`: "the first-received byte being the most significant" (00_scope.md R7, 20_memory.md R28). -/
def be16 (hi lo : Byte) : Half := hi ++ lo

/-- The more significant byte, stored first (20_memory.md R28). -/
def highByte (v : Half) : Byte := v.extractLsb' 8 8

/-- The less significant byte, stored second (20_memory.md R28). -/
def lowByte (v : Half) : Byte := v.extractLsb' 0 8

/-! ### The decoder -/

/-- What the decoder reads from the bytes of a candidate. -/
inductive Decoded where
  /-- A whole header is present. -/
  | instr (i : Instr)
  /-- Rejected by name: `k` more bytes are needed before the header can be read (41_frame_scanner.md S1, S3). -/
  | needMore (k : Nat)
  deriving DecidableEq, Repr

/-- The row of a selector other than SHORT's and LONG's, in the table's order (30_encoding.md R54). -/
def decodeInvalid (sel : Byte) : Instr :=
  if sel = 0x04 then .reserved04
  else if sel &&& 0xFE = 0x00 then .invalid0001 (sel.extractLsb' 0 1)
  else if sel = 0x05 then .invalid05
  else if sel &&& 0xFE = 0x06 then .invalid0607 (sel.extractLsb' 0 1)
  else if sel &&& 0xF8 = 0x08 then .invalid080F (sel.extractLsb' 0 3)
  else if sel &&& 0xF0 = 0x10 then .invalid101F (sel.extractLsb' 0 4)
  else if sel &&& 0xE0 = 0x20 then .invalid203F (sel.extractLsb' 0 5)
  else if sel &&& 0xC0 = 0x40 then .invalid407F (sel.extractLsb' 0 6)
  else .invalid80FF (sel.extractLsb' 0 7)

/-- Decodes the header at the front of a candidate: the selector gives the number of header bytes, the length field follows
(30_encoding.md R51). Total; bytes behind the header are not looked at. -/
def decode : Bytes → Decoded
  | [] => .needMore 1
  | sel :: rest =>
    if sel = Config.selShort then
      match rest with
      | [] => .needMore 1
      | len :: _ => .instr (.short len)
    else if sel = Config.selLong then
      match rest with
      | [] => .needMore 2
      | [_] => .needMore 1
      | hi :: lo :: _ => .instr (.long (be16 hi lo))
    else .instr (decodeInvalid sel)

/-! ### The encoder -/

/-- SHORT's header `00000010 llllllll` (30_encoding.md R42). -/
def shortHeader (len : Byte) : Bytes := [Config.selShort, len]

/-- LONG's header `00000011 hhhhhhhh llllllll`, `L = h * 256 + l` (30_encoding.md R43). -/
def longHeader (len : Half) : Bytes := [Config.selLong, highByte len, lowByte len]

/-- The header bytes of a selector row; none for an operation, which "is not encoded in bits" (30_encoding.md R54). -/
def encode : Instr → Option Bytes
  | .short len => some (shortHeader len)
  | .long len => some (longHeader len)
  | .reserved04 => some [0x04]
  | .invalid0001 x => some [0b0000000#7 ++ x]
  | .invalid05 => some [0x05]
  | .invalid0607 x => some [0b0000011#7 ++ x]
  | .invalid080F x => some [0b00001#5 ++ x]
  | .invalid101F x => some [0b0001#4 ++ x]
  | .invalid203F x => some [0b001#3 ++ x]
  | .invalid407F x => some [0b01#2 ++ x]
  | .invalid80FF x => some [0b1#1 ++ x]
  | .reset => none
  | .eatByte _ => none
  | .decodeFrame _ => none
  | .crc16 _ => none
  | .sizeHint _ => none
  | .commitFrame _ _ _ => none

/-- `match` and `mask` of each selector row, in the order of spec/opcode_table.json; none for an operation. -/
def rowPattern : Instr → Option (Byte × Byte)
  | .short _ => some (0x02, 0xFF)
  | .long _ => some (0x03, 0xFF)
  | .reserved04 => some (0x04, 0xFF)
  | .invalid0001 _ => some (0x00, 0xFE)
  | .invalid05 => some (0x05, 0xFF)
  | .invalid0607 _ => some (0x06, 0xFE)
  | .invalid080F _ => some (0x08, 0xF8)
  | .invalid101F _ => some (0x10, 0xF0)
  | .invalid203F _ => some (0x20, 0xE0)
  | .invalid407F _ => some (0x40, 0xC0)
  | .invalid80FF _ => some (0x80, 0x80)
  | .reset => none
  | .eatByte _ => none
  | .decodeFrame _ => none
  | .crc16 _ => none
  | .sizeHint _ => none
  | .commitFrame _ _ _ => none

/-- The eleven (match, mask) pairs of spec/opcode_table.json (30_encoding.md R54). -/
def selectorPatterns : List (Byte × Byte) :=
  [(0x02, 0xFF), (0x03, 0xFF), (0x04, 0xFF), (0x00, 0xFE), (0x05, 0xFF), (0x06, 0xFE), (0x08, 0xF8), (0x10, 0xF0),
   (0x20, 0xE0), (0x40, 0xC0), (0x80, 0x80)]

/-! ### Table words -/

/-- The longest header, in bytes: LONG's (30_encoding.md R43). -/
def maxHeader : Nat := 3

/-- The `k` lowest bytes of `w`, bits 7..0 first. -/
def wordBytes : Nat → Nat → Bytes
  | 0, _ => []
  | k + 1, w => BitVec.ofNat 8 w :: wordBytes k (w / 256)

/-- The stream bytes of a table word: `nbits` bits of `w`, then zeros up to the longest header. -/
def tableWordBytes (nbits w : Nat) : Bytes := wordBytes maxHeader (w % 2 ^ nbits)

/-- What the decoder reads from an instruction whose bits are `w`, numbered as spec/opcode_table.json numbers them. -/
def decodeTableWord (nbits w : Nat) : Option Instr :=
  match decode (tableWordBytes nbits w) with
  | .instr i => some i
  | .needMore _ => none

end Sys2Proof
end

