-- ==== Sys2Proof/Machine/State.lean ====
section
/-! DEFINITION. The machine's state as plain data (10_state.md), the values it exchanges with its caller, and the named
reasons a step can stop. -/

namespace Sys2Proof.Machine

/-- The six causes of InvalidData, in the order they are tested (41_frame_scanner.md R79). -/
inductive InvalidCause where
  | badSelector
  | zeroLength
  | redundantLength
  | exceedsCapacity
  | badTerminator
  | crcMismatch
  deriving DecidableEq, Repr

/-- The outcome of DECODE_FRAME, the only condition value of the hardware (41_frame_scanner.md R65, 10_state.md R15). -/
inductive ScanOutcome where
  /-- "not enough data yet to decide"; `k` is the value written to `bytes_left`. -/
  | needMoreBytes (k : Nat)
  /-- "the byte at `read_idx` cannot start a valid frame". -/
  | invalidData (cause : InvalidCause)
  /-- "a valid frame was found": its wire length, and its payload's index range `[lo, hi)`. -/
  | consumed (count lo hi : Nat)
  deriving DecidableEq, Repr

/-- The errors the CORE returns (60_exceptions.md R114). They are return values; they change no state. -/
inductive EncoderError where
  | tooBig
  | invalidLength
  | notEnoughSpace
  deriving DecidableEq, Repr

/-- What an operation returns to its caller. -/
inductive OpResult where
  /-- DECODE_FRAME's outcome. -/
  | outcome (o : ScanOutcome)
  /-- CRC16's value. -/
  | crc (value : Half)
  /-- SIZE_HINT's value. -/
  | size (totalBytes : Nat)
  /-- COMMIT_FRAME's destination after the frame was written. -/
  | committed (dest : Bytes)
  /-- An encoder error raised by SIZE_HINT, which has no destination. -/
  | sizeError (e : EncoderError)
  /-- An encoder error raised by COMMIT_FRAME, with the destination as it then is. -/
  | commitError (e : EncoderError) (dest : Bytes)
  deriving DecidableEq, Repr

/-- An operation offered at the interface (00_scope.md R8, 92_eei_decisions.md D1 to D3). -/
inductive Op where
  | reset
  | eatByte (byte : Byte)
  | decodeFrame (dataLen : Nat)
  | crc16 (s : Bytes)
  | sizeHint (frameLen : Nat)
  | commitFrame (payload dest : Bytes) (capacity : Nat)
  deriving DecidableEq, Repr

/-- The operation's row of spec/opcode_table.json. -/
def Op.instr : Op → Instr
  | .reset => .reset
  | .eatByte b => .eatByte b
  | .decodeFrame d => .decodeFrame d
  | .crc16 s => .crc16 s
  | .sizeHint f => .sizeHint f
  | .commitFrame p d n => .commitFrame p d n

/-- One decoder instance and its two streams. The spec's tuple is `buf`, `readIdx`, `writeIdx`, `bytesLeft` (10_state.md);
the other fields are the model's own (log entries 1, 3, 4, 5). Cursors and the hint are natural numbers: "A model that works
over natural numbers ... computes the same values" (00_scope.md R6). -/
structure State where
  /-- N, "fixed at construction/compile time" (10_state.md R16); no step writes it. -/
  cap : Nat
  /-- `buf` (R10): N bytes, as cells by rising index. An index that is not listed holds `Config.resetByte` (log entry 6). -/
  buf : List Host.Cell
  /-- `read_idx` (R11): "index of the first byte not yet consumed/classified". -/
  readIdx : Nat
  /-- `write_idx` (R12): "index one past the last byte written". -/
  writeIdx : Nat
  /-- `bytes_left` (R13): the cached hint. -/
  bytesLeft : Nat
  /-- Iterations of EAT_BYTE's scan loop still allowed (42_ingestion.md R85); 0 at rest. -/
  scanLeft : Nat
  /-- The operations offered at the interface and not yet taken, oldest first (the input stream, 20_memory.md R25). -/
  port : List Op
  /-- The payloads handed to the sink so far, oldest first (the output stream, 20_memory.md R25, 42_ingestion.md R92). -/
  sink : List Bytes
  /-- What the latest operation returned to its caller, if it returned anything. -/
  result : Option OpResult
  deriving DecidableEq, Repr

/-- A machine fault. Safe: the model stops, and by 20_memory.md R27 no reachable state raises it. -/
inductive Fault where
  /-- An access to buffer index `i` with `N <= i`, which does not exist (20_memory.md R25, R27). Raised by the buffer
  accesses of Machine/Ops.lean, from states no run reaches only. Safe. -/
  | noSuchByte (i : Nat)
  deriving DecidableEq, Repr

/-- A refusal. All are safe: the model gives no next state. -/
inductive Refusal where
  /-- Raised by `exec` for an instruction that has no meaning yet. Safe. -/
  | notModelled (mnemonic : String)
  /-- N = 0 or N > 65535: "refuse" (93_implementation_defined.md U6). Raised by the decoder's operations on such an instance
  and by COMMIT_FRAME on such an operand. Safe. -/
  | capacityOutOfRange
  /-- A state that breaks `0 <= read_idx <= write_idx <= N`: "refuse" (93_implementation_defined.md U11). Raised by the
  decoder's operations; unreachable from RESET. Safe. -/
  | brokenCursors
  /-- DECODE_FRAME with a `data_len` larger than `write_idx - read_idx`: "refuse" (93_implementation_defined.md U10). Safe. -/
  | dataLenBeyondPending
  /-- EAT_BYTE while another EAT_BYTE on the same state is in progress: "a model gives it no meaning (refused)"
  (60_exceptions.md R119, 93_implementation_defined.md U1). Safe. -/
  | reentrantEatByte
  /-- An operation handed to the candidate dispatcher, which the decoder never does: operations "are not encoded in bits"
  (30_encoding.md R54). Raised by `runSelector`; no step reaches it. Safe. -/
  | operationInStream
  deriving DecidableEq, Repr

/-- An instance of capacity `n` right after its creation, with the buffer contents `m` (10_state.md R20): three registers 0,
"unspecified (any bytes)" in the buffer, no scan in progress, nothing offered, nothing handed over, nothing returned. -/
def State.resetWith (n : Nat) (m : List Host.Cell) : State :=
  { cap := n, buf := m, readIdx := 0, writeIdx := 0, bytesLeft := 0, scanLeft := 0, port := [], sink := [], result := none }

/-- An instance of capacity `n` right after its creation, with the contents the model names: every byte is
`Config.resetByte` (log entry 6). -/
def State.resetOf (n : Nat) : State := State.resetWith n []

/-- The machine right after reset, for the instance size of `Config.capacity` (log entry 1). -/
def State.reset : State := State.resetOf Config.capacity

end Sys2Proof.Machine
end

