-- ==== Sys2Proof/Machine/Ops.lean ====
section
/-! DEFINITION. The named operations over the buffer and the registers: byte reads and writes, MemRead and MemWrite,
pending bytes, overflow discard, compaction, append, resynchronisation (the spec's "trap entry") and continuation (its
"trap return"). -/

namespace Sys2Proof.Machine

/-- The three outcomes of a step of this machine. -/
abbrev Result := Host.Outcome State Fault Refusal

/-- Goes on with the value of a buffer access, or stops with its fault. -/
def orFault {α : Type} (x : Except Fault α) (k : α → Result) : Result :=
  match x with
  | .ok a => k a
  | .error f => .fault f

/-! ### The buffer as a list of cells -/

/-- The byte at index `i`. An unlisted index reads as `Config.resetByte` (log entry 6). -/
def bufGet : List Host.Cell → Nat → Byte
  | [], _ => Config.resetByte
  | c :: m, i => if i = c.1 then c.2 else bufGet m i

/-- Lists byte `b` at index `i`, in its place by index, replacing an earlier one. -/
def bufInsert : List Host.Cell → Nat → Byte → List Host.Cell
  | [], i, b => [(i, b)]
  | c :: m, i, b => if i < c.1 then (i, b) :: c :: m else if i = c.1 then (i, b) :: m else c :: bufInsert m i b

/-- Lists nothing at index `i`. -/
def bufErase : List Host.Cell → Nat → List Host.Cell
  | [], _ => []
  | c :: m, i => if i = c.1 then bufErase m i else c :: bufErase m i

/-- Byte `b` at index `i`, in canonical form: an index that holds `Config.resetByte` is not listed. -/
def bufSet (m : List Host.Cell) (i : Nat) (b : Byte) : List Host.Cell :=
  if b = Config.resetByte then bufErase m i else bufInsert m i b

/-- Are the listed indices all at least `i` and strictly rising, and does no entry equal what an unlisted index reads as? -/
def canonicalFrom : Nat → List Host.Cell → Bool
  | _, [] => true
  | i, c :: m => i ≤ c.1 && c.2 != Config.resetByte && canonicalFrom (c.1 + 1) m

/-- The canonical form: indices strictly rise, and no entry equals what an unlisted index reads as. -/
def Memory.wf (m : List Host.Cell) : Bool := canonicalFrom 0 m

/-! ### Named updates of the registers -/

/-- `read_idx <- r ; write_idx <- w`. -/
def State.setCursors (s : State) (r w : Nat) : State := { s with readIdx := r, writeIdx := w }

/-- `bytes_left <- k`. -/
def State.setHint (s : State) (k : Nat) : State := { s with bytesLeft := k }

/-- The buffer's cells. -/
def State.setBuf (s : State) (m : List Host.Cell) : State := { s with buf := m }

/-- The scan loop's remaining iterations. -/
def State.setScan (s : State) (k : Nat) : State := { s with scanLeft := k }

/-- What the operation returns to its caller. -/
def State.setResult (s : State) (r : Option OpResult) : State := { s with result := r }

/-- The operations still offered. -/
def State.setPort (s : State) (ops : List Op) : State := { s with port := ops }

/-- `emit(p)`: append `p` to the payloads handed to the sink (00_scope.md R7; by value, 20_memory.md R37). The sink takes
every payload (42_ingestion.md R92). -/
def State.emit (s : State) (p : Bytes) : State := { s with sink := s.sink ++ [p] }

/-- `bytes_pending = write_idx - read_idx` (00_scope.md R9). -/
def State.pending (s : State) : Nat := s.writeIdx - s.readIdx

/-! ### What the model is defined on -/

/-- The two preconditions every decoder operation has: a legal N (93 U6) and `0 <= read_idx <= write_idx <= N` (93 U11). -/
def State.domainRefusal (s : State) : Option Refusal :=
  if !capacityLegal s.cap then some .capacityOutOfRange
  else if s.writeIdx < s.readIdx || s.cap < s.writeIdx then some .brokenCursors
  else none

/-- Goes on inside the model's domain, or refuses by name outside it. -/
def guarded (s : State) (k : Result) : Result :=
  match s.domainRefusal with
  | some r => .refused r
  | none => k

/-! ### Buffer accesses -/

/-- `buf[i]`, the read of buffer byte `i`, `0 <= i < N` (00_scope.md R7). No side effect (20_memory.md R31). -/
def State.readByte (s : State) (i : Nat) : Except Fault Byte :=
  if s.cap ≤ i then .error (.noSuchByte i) else .ok (bufGet s.buf i)

/-- `buf[i] <- b` (00_scope.md R7). -/
def State.writeByte (s : State) (i : Nat) (b : Byte) : Except Fault State :=
  if s.cap ≤ i then .error (.noSuchByte i) else .ok (s.setBuf (bufSet s.buf i b))

/-- `MemRead(i, n)`: "the byte string `buf[i], buf[i+1], ..., buf[i+n-1]`, lowest index first" (00_scope.md R7). -/
def State.memRead (s : State) (i : Nat) : Nat → Except Fault Bytes
  | 0 => .ok []
  | n + 1 =>
    match s.readByte i with
    | .error f => .error f
    | .ok b =>
      match s.memRead (i + 1) n with
      | .error f => .error f
      | .ok bs => .ok (b :: bs)

/-- `MemWrite(i, n, bs)`: "writes the n bytes of string" `bs` from index `i` on (00_scope.md R7). -/
def State.memWrite (s : State) (i : Nat) : Bytes → Except Fault State
  | [] => .ok s
  | b :: bs =>
    match s.writeByte i b with
    | .error f => .error f
    | .ok t => t.memWrite (i + 1) bs

/-! ### EAT_BYTE's buffer management, steps E1 to E3 -/

/-- E1, overflow discard: when N bytes are pending, both cursors go to 0; `buf` and `bytes_left` stay
(42_ingestion.md R81, 60_exceptions.md R113). -/
def State.overflowDiscard (s : State) : State := if s.cap ≤ s.pending then s.setCursors 0 0 else s

/-- Compaction's trigger: "write cursor == capacity AND pending bytes > 0" (42_ingestion.md R82). -/
def State.compactionDue (s : State) : Bool := s.writeIdx == s.cap && 0 < s.pending

/-- E2, compaction: the pending bytes are moved to index 0, as a copy through a temporary would (20_memory.md R32,
42_ingestion.md R82). -/
def State.compact (s : State) : Except Fault State :=
  if s.compactionDue then
    match s.memRead s.readIdx s.pending with
    | .error f => .error f
    | .ok bs =>
      match s.memWrite 0 bs with
      | .error f => .error f
      | .ok t => .ok (t.setCursors 0 s.pending)
  else .ok s

/-- E3, append: the byte is stored at `write_idx`, which then rises by 1 (42_ingestion.md R83). -/
def State.append (s : State) (b : Byte) : Except Fault State :=
  match s.writeByte s.writeIdx b with
  | .error f => .error f
  | .ok t => .ok (t.setCursors s.readIdx (s.writeIdx + 1))

/-- Steps E1, E2 and E3, in that order (42_ingestion.md R94). -/
def State.prepare (s : State) (b : Byte) : Except Fault State :=
  match s.overflowDiscard.compact with
  | .error f => .error f
  | .ok t => t.append b

/-! ### The scan loop's bookkeeping, step E6, and the answers to the scanner's outcomes -/

/-- E6, cursor reset: an emptied buffer has both cursors at 0 (42_ingestion.md R89). -/
def State.cursorReset (s : State) : State := if s.readIdx = s.writeIdx then s.setCursors 0 0 else s

/-- The scan loop is left: E6 runs, and the machine is at rest (42_ingestion.md R94). -/
def State.finishScan (s : State) : State := s.cursorReset.setScan 0

/-- Continuation after a rejection or a frame (the spec's "trap return", 60_exceptions.md R118): the next iteration of the
loop, or its end when the iterations counted at loop entry are used up (42_ingestion.md R85, R90). -/
def State.nextIteration (s : State) : State := if s.scanLeft ≤ 1 then s.finishScan else s.setScan (s.scanLeft - 1)

/-- Resynchronisation, the whole response to InvalidData (the spec's "trap entry", 60_exceptions.md R116, 42_ingestion.md
R87): `read_idx <- read_idx + 1`, nothing saved, no mode changed, and the loop goes on. -/
def State.resynchronise (s : State) : State := (s.setCursors (s.readIdx + 1) s.writeIdx).nextIteration

/-- A frame was accepted (42_ingestion.md R88): its payload goes to the sink, and `read_idx` passes over the whole frame. -/
def State.accept (s : State) (count : Nat) (payload : Bytes) : State :=
  ((s.emit payload).setCursors (s.readIdx + count) s.writeIdx).nextIteration

/-- One iteration's answer to the scanner's outcome (E5, 42_ingestion.md R86 to R88). -/
def respond (o : ScanOutcome) (s : State) : Result :=
  match o with
  | .needMoreBytes k => .next (s.setHint k).finishScan
  | .invalidData _ => .next s.resynchronise
  | .consumed count lo hi => orFault (s.memRead lo (hi - lo)) fun p => .next (s.accept count p)

end Sys2Proof.Machine
end

