-- ==== Sys2Proof/Machine/Crc.lean ====
section
/-! DEFINITION. The CRC-check unit: CRC-16/XMODEM, and the operation CRC16 (40_crc.md R60). -/

namespace Sys2Proof.Machine

/-- One of the eight shifts: `crc <<< 1`, xored with 0x1021 when bit 15 was 1 (40_crc.md R60). -/
def crcShift (crc : Half) : Half :=
  if crc.msb then (crc <<< 1) ^^^ Config.crcPoly else crc <<< 1

/-- `k x`, after the number `x` has been worked out: the same value (Laws/Scan.lean, `evalFirst_eq`), in a form that lets
Lean's kernel evaluate a long CRC one shift at a time. -/
def evalFirst {α : Type} (x : Half) (k : Half → α) : α :=
  match x.toNat with
  | 0 => k 0
  | n + 1 => k (BitVec.ofNat 16 (n + 1))

/-- `crcShift`, `n` times. -/
def crcShifts : Nat → Half → Half
  | 0, crc => crc
  | n + 1, crc => evalFirst (crcShift crc) fun c => crcShifts n c

/-- One byte enters at the top, bit 7 first: `crc ^ (zext_16(s[i]) << 8)`, then eight shifts (40_crc.md R60). -/
def crcByte (crc : Half) (b : Byte) : Half := crcShifts 8 (crc ^^^ (b.setWidth 16 <<< 8))

/-- The accumulator after the bytes of `s`, first byte first. -/
def crcFrom : Half → Bytes → Half
  | crc, [] => crc
  | crc, b :: s => evalFirst (crcByte crc b) fun c => crcFrom c s

/-- `CRC16(s)` (40_crc.md R60): initial value 0, no reflection, no final XOR (R61). -/
def crc16 (s : Bytes) : Half := crcFrom Config.crcInit s ^^^ Config.crcFinalXor

/-- CRC16: returns the value; no state, no flags, no exceptions (40_crc.md R60). -/
def execCrc16 (s : Bytes) (st : State) : Result := .next (st.setResult (some (.crc (crc16 s))))

end Sys2Proof.Machine
end

