-- ==== Sys2Proof/Machine/Operands.lean ====
section
/-! DEFINITION. The fields of a candidate frame and of a frame to be written: header lengths, total length, payload, CRC
field, terminator (30_encoding.md R40 to R49). Offsets count from the selector byte. -/

namespace Sys2Proof.Machine

/-- `hdr` of the SHORT form: selector and one length byte (30_encoding.md R42). -/
def shortHdr : Nat := 2

/-- `hdr` of the LONG form: selector and two length bytes (30_encoding.md R43). -/
def longHdr : Nat := 3

/-- `T = hdr + L + 3`, header, payload, CRC and terminator (30_encoding.md R46). -/
def totalLen (hdr len : Nat) : Nat := hdr + len + 3

/-- The byte at offset `i` of a candidate. The scanner asks only for offsets it has shown to be present (41_frame_scanner.md
R66), so the 0 of an absent offset is never used. -/
def byteAt (bs : Bytes) (i : Nat) : Byte := bs.getD i 0

/-- The payload: `L` bytes from offset `hdr` on, verbatim (30_encoding.md R50). -/
def payloadOf (hdr len : Nat) (bs : Bytes) : Bytes := (bs.drop hdr).take len

/-- `rx_crc`, the received CRC: big-endian, just behind the payload (30_encoding.md R48). -/
def rxCrc (hdr len : Nat) (bs : Bytes) : Half := be16 (byteAt bs (hdr + len)) (byteAt bs (hdr + len + 1))

/-- The last byte of the frame, at offset `T - 1` (30_encoding.md R49). -/
def terminatorOf (hdr len : Nat) (bs : Bytes) : Byte := byteAt bs (totalLen hdr len - 1)

/-- What follows the header on the wire: payload verbatim, its CRC big-endian, the terminator (30_encoding.md R40). -/
def frameTail (payload : Bytes) : Bytes :=
  payload ++ [highByte (crc16 payload), lowByte (crc16 payload), Config.terminator]

/-- `SHORT(p)`, for `1 <= len(p) <= 255` (30_encoding.md R53). -/
def shortFrame (payload : Bytes) : Bytes := shortHeader (BitVec.ofNat 8 payload.length) ++ frameTail payload

/-- `LONG(p)`, for `255 <= len(p) <= 65535` (30_encoding.md R53). -/
def longFrame (payload : Bytes) : Bytes := longHeader (BitVec.ofNat 16 payload.length) ++ frameTail payload

/-- `ENC(p)`: "`SHORT(p)` when `len(p) <= 255` and `LONG(p)` otherwise" (30_encoding.md R53). -/
def encFrame (payload : Bytes) : Bytes := if payload.length ≤ 255 then shortFrame payload else longFrame payload

end Sys2Proof.Machine
end

