-- ==== Sys2Proof/Machine/Encoder.lean ====
section
/-! DEFINITION. The frame encoder: the operations SIZE_HINT and COMMIT_FRAME (43_encoder.md). -/

namespace Sys2Proof.Machine

/-- `SIZE_HINT(frame_len)` (43_encoder.md R100); `SIZE_HINT(0) = 5` (R101). -/
def sizeHint (frameLen : Nat) : OpResult :=
  if frameLen ≤ 255 then .size (totalLen shortHdr frameLen)
  else if frameLen ≤ Config.sizeHintMax then .size (totalLen longHdr frameLen)
  else .sizeError .tooBig

/-- SIZE_HINT: "the result does not depend on N or on any decoder state" (43_encoder.md R100). -/
def execSizeHint (frameLen : Nat) (s : State) : Result := .next (s.setResult (some (sizeHint frameLen)))

/-- The frame COMMIT_FRAME writes for a payload, with N = `n`; none where the length is unsupported. N bounds the LONG form
only (43_encoder.md R102, R104). -/
def commitFrameBytes (n : Nat) (payload : Bytes) : Option Bytes :=
  if 1 ≤ payload.length ∧ payload.length ≤ 255 then some (shortFrame payload)
  else if 256 ≤ payload.length ∧ payload.length ≤ n then some (longFrame payload)
  else none

/-- `dest` with `frame` written at its start; bytes behind it keep their values (43_encoder.md R105). -/
def overwrite (frame dest : Bytes) : Bytes := frame ++ dest.drop frame.length

/-- `COMMIT_FRAME(payload, dest)` for a decoder of capacity `n`: the length is checked first, the space second, and on an
error `dest` is unchanged (43_encoder.md R102, R103). -/
def commitFrame (n : Nat) (payload dest : Bytes) : OpResult :=
  match commitFrameBytes n payload with
  | none => .commitError .invalidLength dest
  | some frame =>
    if dest.length < frame.length then .commitError .notEnoughSpace dest else .committed (overwrite frame dest)

/-- COMMIT_FRAME: the operand N is a legal capacity (00_scope.md R6), or the operation is refused (93 U6). No decoder state is
read or written (43_encoder.md R108). -/
def execCommitFrame (payload dest : Bytes) (n : Nat) (s : State) : Result :=
  if capacityLegal n then .next (s.setResult (some (commitFrame n payload dest))) else .refused .capacityOutOfRange

end Sys2Proof.Machine
end

