-- ==== Sys2Proof/Machine/Flags.lean ====
section
/-! DEFINITION. The hardware keeps no flags; its one condition value is the scanner's outcome (10_state.md R15), computed
here. "The outcome is a function of N and of the `data_len` bytes `MemRead(read_idx, data_len)` alone" (41_frame_scanner.md
R76): `n` is N, `r` the index of the candidate's first byte (it only names the payload's range), `bs` those bytes. -/

namespace Sys2Proof.Machine

/-- S5 to S9, the same for both forms: capacity, availability, terminator, CRC, acceptance (41_frame_scanner.md R65, R71 to
R75). -/
def judgeBody (n r hdr len : Nat) (bs : Bytes) : ScanOutcome :=
  if n < len then .invalidData .exceedsCapacity
  else if bs.length < totalLen hdr len then .needMoreBytes (totalLen hdr len - bs.length)
  else if terminatorOf hdr len bs ≠ Config.terminator then .invalidData .badTerminator
  else if crc16 (payloadOf hdr len bs) ≠ rxCrc hdr len bs then .invalidData .crcMismatch
  else .consumed (totalLen hdr len) (r + hdr) (r + hdr + len)

/-- S1, then S3: without a byte the scanner asks for 1, without the whole header for what is missing of it
(41_frame_scanner.md R67, R69). -/
def withHeader (hdr : Nat) (bs : Bytes) (o : ScanOutcome) : ScanOutcome :=
  if bs.length = 0 then .needMoreBytes 1
  else if bs.length < hdr then .needMoreBytes (hdr - bs.length)
  else o

/-- A candidate whose selector is SHORT (41_frame_scanner.md R65 S3 to S9): "`L == 0` is invalid". -/
def judgeShort (n r : Nat) (len : Byte) (bs : Bytes) : ScanOutcome :=
  withHeader shortHdr bs (if len = 0 then .invalidData .zeroLength else judgeBody n r shortHdr len.toNat bs)

/-- A candidate whose selector is LONG (41_frame_scanner.md R65 S3 to S9): "valid only if `L >= 255`". -/
def judgeLong (n r : Nat) (len : Half) (bs : Bytes) : ScanOutcome :=
  withHeader longHdr bs (if len.toNat < 255 then .invalidData .redundantLength else judgeBody n r longHdr len.toNat bs)

/-- A candidate with any other selector: rejected on sight, "without waiting for or reading any later byte"
(30_encoding.md R44, R45; 41_frame_scanner.md R68). -/
def judgeBadSelector (bs : Bytes) : ScanOutcome := withHeader 1 bs (.invalidData .badSelector)

/-- The scanner on a byte string: S1 to S9 (41_frame_scanner.md R65). -/
def scanBytes (n r : Nat) (bs : Bytes) : ScanOutcome :=
  match decode bs with
  | .needMore k => .needMoreBytes k
  | .instr (.short len) => judgeShort n r len bs
  | .instr (.long len) => judgeLong n r len bs
  | .instr _ => judgeBadSelector bs

end Sys2Proof.Machine
end

