-- ==== Sys2Proof/Machine/Selectors.lean ====
section
/-! DEFINITION. The meanings of the eleven selector classes: one iteration of EAT_BYTE's scan loop on a candidate with that
header at `read_idx`, the lookahead being all pending bytes (42_ingestion.md R85), and the loop's answer to the outcome. -/

namespace Sys2Proof.Machine

/-- One scan of the pending bytes, judged by `judge`, and the loop's answer (E5). -/
def scanStep (judge : Bytes → ScanOutcome) (s : State) : Result :=
  guarded s (orFault (s.memRead s.readIdx s.pending) fun bs => respond (judge bs) s)

/-- SHORT (30_encoding.md R42). -/
def execShort (len : Byte) (s : State) : Result := scanStep (judgeShort s.cap s.readIdx len) s

/-- LONG (30_encoding.md R43). -/
def execLong (len : Half) (s : State) : Result := scanStep (judgeLong s.cap s.readIdx len) s

/-- RESERVED_04: "always rejected by the decoder (not supported)" (30_encoding.md R44). -/
def execReserved04 (s : State) : Result := scanStep judgeBadSelector s

/-- INVALID_00_01 (30_encoding.md R45). The free bit has no effect. -/
def execInvalid0001 (_x : BitVec 1) (s : State) : Result := scanStep judgeBadSelector s

/-- INVALID_05 (30_encoding.md R45). -/
def execInvalid05 (s : State) : Result := scanStep judgeBadSelector s

/-- INVALID_06_07 (30_encoding.md R45). -/
def execInvalid0607 (_x : BitVec 1) (s : State) : Result := scanStep judgeBadSelector s

/-- INVALID_08_0F (30_encoding.md R45). -/
def execInvalid080F (_x : BitVec 3) (s : State) : Result := scanStep judgeBadSelector s

/-- INVALID_10_1F (30_encoding.md R45). -/
def execInvalid101F (_x : BitVec 4) (s : State) : Result := scanStep judgeBadSelector s

/-- INVALID_20_3F (30_encoding.md R45). -/
def execInvalid203F (_x : BitVec 5) (s : State) : Result := scanStep judgeBadSelector s

/-- INVALID_40_7F (30_encoding.md R45). -/
def execInvalid407F (_x : BitVec 6) (s : State) : Result := scanStep judgeBadSelector s

/-- INVALID_80_FF (30_encoding.md R45). -/
def execInvalid80FF (_x : BitVec 7) (s : State) : Result := scanStep judgeBadSelector s

/-- A decoded candidate's meaning, for EAT_BYTE's own loop: `exec`'s arms for the selector classes. The decoder never yields
an operation. -/
def runSelector (i : Instr) (s : State) : Result :=
  match i with
  | .short len => execShort len s
  | .long len => execLong len s
  | .reserved04 => execReserved04 s
  | .invalid0001 x => execInvalid0001 x s
  | .invalid05 => execInvalid05 s
  | .invalid0607 x => execInvalid0607 x s
  | .invalid080F x => execInvalid080F x s
  | .invalid101F x => execInvalid101F x s
  | .invalid203F x => execInvalid203F x s
  | .invalid407F x => execInvalid407F x s
  | .invalid80FF x => execInvalid80FF x s
  | .reset => .refused .operationInStream
  | .eatByte _ => .refused .operationInStream
  | .decodeFrame _ => .refused .operationInStream
  | .crc16 _ => .refused .operationInStream
  | .sizeHint _ => .refused .operationInStream
  | .commitFrame _ _ _ => .refused .operationInStream

end Sys2Proof.Machine
end

