-- ==== Sys2Proof/Machine/Ingestion.lean ====
section
/-! DEFINITION. The framing state machine: fetching a candidate's header, the scan loop, and the operation EAT_BYTE
(42_ingestion.md R80). -/

namespace Sys2Proof.Machine

/-- Fetches and decodes the header of the candidate at `read_idx`: at most the longest header's bytes, and only pending ones
(41_frame_scanner.md R66, 42_ingestion.md R85). -/
def State.fetch (s : State) : Except Fault Decoded :=
  match s.memRead s.readIdx (min maxHeader s.pending) with
  | .error f => .error f
  | .ok bs => .ok (decode bs)

/-- One iteration of the scan loop with `run` as the meaning of a decoded header. Where the header is not whole, the scanner
asks for what is missing (41_frame_scanner.md R67, R69). -/
def scanOnceWith (run : Instr → State → Result) (s : State) : Result :=
  guarded s <|
    orFault s.fetch fun
      | .instr i => run i s
      | .needMore k => respond (.needMoreBytes k) s

/-- One iteration of E5. -/
def scanOnce (s : State) : Result := scanOnceWith runSelector s

/-- At most `k` iterations of E5, until the loop is left (42_ingestion.md R85, R90). -/
def runScan : Nat → State → Result
  | 0, s => .next s
  | k + 1, s =>
    if s.scanLeft = 0 then .next s
    else
      match scanOnce s with
      | .next t => runScan k t
      | .fault f => .fault f
      | .refused r => .refused r

/-- E5 and E6: the iteration count is the number of pending bytes "observed at loop entry" and "is not recomputed"
(42_ingestion.md R85). -/
def State.scanAll (s : State) : Result := runScan s.pending (s.setScan s.pending)

/-- EAT_BYTE with or without step E4; the hardware has it (`hint = true`), and 42_ingestion.md R95 compares the two. -/
def eatByteWith (hint : Bool) (b : Byte) (s : State) : Result :=
  if s.scanLeft ≠ 0 then .refused .reentrantEatByte
  else
    guarded s <|
      orFault ((s.setResult none).prepare b) fun t =>
        if hint && 1 < t.bytesLeft then .next (t.setHint (t.bytesLeft - 1)) else t.scanAll

/-- EAT_BYTE(byte) (42_ingestion.md R80): E1 to E3, then the hint skip E4 or the scan loop E5 and E6. One begun while another
is in progress is refused (60_exceptions.md R119). -/
def execEatByte (b : Byte) (s : State) : Result := eatByteWith true b s

end Sys2Proof.Machine
end

