-- ==== Sys2Proof/Machine/Reset.lean ====
section
/-! DEFINITION. The system operation RESET (70_reset_and_hazards.md R130). -/

namespace Sys2Proof.Machine

/-- RESET: the three registers go to 0, `buf` is not written, nothing is emitted and nothing returned (70_reset_and_hazards.md
R130, R131). An EAT_BYTE in progress is aborted; payloads already handed over stay handed (R132). -/
def execReset (s : State) : Result := .next ((((s.setCursors 0 0).setHint 0).setScan 0).setResult none)

end Sys2Proof.Machine
end

