-- ==== Sys2Proof/Machine/Scanner.lean ====
section
/-! DEFINITION. The operation DECODE_FRAME (41_frame_scanner.md R65), invoked on its own. -/

namespace Sys2Proof.Machine

/-- The scanner writes `bytes_left` "on NeedMoreBytes only" (41_frame_scanner.md R77). -/
def State.noteOutcome (s : State) (o : ScanOutcome) : State :=
  match o with
  | .needMoreBytes k => s.setHint k
  | .invalidData _ => s
  | .consumed _ _ _ => s

/-- DECODE_FRAME(data_len): judges the candidate at `read_idx` from `data_len` of the pending bytes and returns the outcome.
A `data_len` beyond the pending bytes is refused (93_implementation_defined.md U10). -/
def execDecodeFrame (dataLen : Nat) (s : State) : Result :=
  guarded s <|
    if s.pending < dataLen then .refused .dataLenBeyondPending
    else
      orFault (s.memRead s.readIdx dataLen) fun bs =>
        let o := scanBytes s.cap s.readIdx bs
        .next ((s.noteOutcome o).setResult (some (.outcome o)))

end Sys2Proof.Machine
end

