-- ==== Sys2Proof/Machine/Dispatch.lean ====
section
/-! DEFINITION. One arm per row of spec/opcode_table.json. -/

namespace Sys2Proof.Machine

def exec (i : Instr) (s : State) : Host.Outcome State Fault Refusal :=
  match i with
  | .short len => Sys2Proof.Machine.execShort len s
  | .long len => Sys2Proof.Machine.execLong len s
  | .reserved04 => Sys2Proof.Machine.execReserved04 s
  | .invalid0001 x => Sys2Proof.Machine.execInvalid0001 x s
  | .invalid05 => Sys2Proof.Machine.execInvalid05 s
  | .invalid0607 x => Sys2Proof.Machine.execInvalid0607 x s
  | .invalid080F x => Sys2Proof.Machine.execInvalid080F x s
  | .invalid101F x => Sys2Proof.Machine.execInvalid101F x s
  | .invalid203F x => Sys2Proof.Machine.execInvalid203F x s
  | .invalid407F x => Sys2Proof.Machine.execInvalid407F x s
  | .invalid80FF x => Sys2Proof.Machine.execInvalid80FF x s
  | .reset => Sys2Proof.Machine.execReset s
  | .eatByte byte => Sys2Proof.Machine.execEatByte byte s
  | .decodeFrame dataLen => Sys2Proof.Machine.execDecodeFrame dataLen s
  | .crc16 bytes => Sys2Proof.Machine.execCrc16 bytes s
  | .sizeHint frameLen => Sys2Proof.Machine.execSizeHint frameLen s
  | .commitFrame payload dest capacity => Sys2Proof.Machine.execCommitFrame payload dest capacity s

end Sys2Proof.Machine
end

