-- ==== Sys2Proof/Machine/Interface.lean ====
section
/-! DEFINITION. What a step does around `exec`: taking the oldest offered operation, idling, and going on with a scan loop in
progress (20_memory.md R35, 60_exceptions.md R123). -/

namespace Sys2Proof.Machine

/-- One step with `run` as the meaning of an instruction. A scan loop in progress goes on with its next iteration: the
header at `read_idx` is fetched, decoded and run. At rest the oldest offered operation is taken and run to completion; with
none offered "the hardware is idle and keeps its whole State" (60_exceptions.md R123). -/
def stepWith (run : Instr → State → Result) (s : State) : Result :=
  if s.scanLeft ≠ 0 then scanOnceWith run s
  else
    match s.port with
    | [] => .next s
    | op :: rest => run op.instr (s.setPort rest)

/-- Cells holding `bs` from index `i` on. -/
def bufFill : List Host.Cell → Nat → Bytes → List Host.Cell
  | m, _, [] => m
  | m, i, b :: bs => bufFill (bufSet m i b) (i + 1) bs

/-- The candidate `bs` placed at `read_idx`, pending, with a scan loop entered on the pending bytes (42_ingestion.md R85):
the very next step fetches it. -/
def State.withCandidate (s : State) (bs : Bytes) : State :=
  let t := (s.setBuf (bufFill s.buf s.readIdx bs)).setCursors s.readIdx (max s.writeIdx (s.readIdx + bs.length))
  t.setScan t.pending

end Sys2Proof.Machine
end

