-- ==== Sys2Proof/Machine/Step.lean ====
section
/-! DEFINITION. The step function, and a table word placed where it fetches. -/

namespace Sys2Proof.Machine

/-- One step of the machine (Machine/Interface.lean says what it does around `exec`). -/
def step (s : State) : Host.Outcome State Fault Refusal := stepWith exec s

/-- `s` with a table word's bytes as the candidate at `read_idx` of a scan loop just entered (log entry 5). -/
def State.withFetchWord (s : State) (nbits w : Nat) : State := s.withCandidate (tableWordBytes nbits w)

end Sys2Proof.Machine
end

