-- ==== Sys2Proof/Safety.lean ====
section
/-! DEFINITION. The terms in which statements are made: the machine's invariant, runs of EAT_BYTE, and three restatements of
the spec that the machine is compared with (the pseudocode of R65 by index, the ascending copy of R32, and the decoder as a
queue of pending bytes). -/

namespace Sys2Proof.Machine

/-! ### The invariant -/

/-- What every step keeps: the memory's canonical form and range (20_memory.md R25), a legal N (00_scope.md R6), the cursor
invariants (10_state.md R19, 42_ingestion.md R96), the bound of the hint (42_ingestion.md R97), and as many iterations left as bytes are pending while a scan loop runs (42_ingestion.md R90). -/
abbrev State.Inv (s : State) : Prop :=
  Memory.wf s.buf = true ∧
  (∀ c ∈ s.buf, c.1 < s.cap) ∧
  capacityLegal s.cap = true ∧
  s.readIdx ≤ s.writeIdx ∧
  s.writeIdx ≤ s.cap ∧
  (s.scanLeft = 0 → s.readIdx = s.writeIdx → s.writeIdx = 0) ∧
  (s.scanLeft ≠ 0 → s.pending ≤ s.scanLeft) ∧
  s.bytesLeft ≤ s.cap + 3

/-- At rest: "between two EAT_BYTE operations" (00_scope.md R9). -/
abbrev State.AtRest (s : State) : Prop := s.Inv ∧ s.scanLeft = 0

/-! ### Reading a state -/

/-- The value of buffer byte `i`. -/
def State.byte (s : State) (i : Nat) : Byte := bufGet s.buf i

/-- The pending bytes, oldest first (20_memory.md R26). -/
def State.pendingBytes (s : State) : Bytes := (List.range s.pending).map fun k => s.byte (s.readIdx + k)

/-- The hint as E4 sees it: 0 and 1 "are therefore equivalent" (10_state.md R13). -/
def State.hint (s : State) : Nat := max s.bytesLeft 1

/-! ### Runs of EAT_BYTE -/

/-- The bytes of a stream, each eaten with or without step E4. -/
def feedWith (hint : Bool) : Bytes → State → Result
  | [], s => .next s
  | b :: bs, s =>
    match eatByteWith hint b s with
    | .next t => feedWith hint bs t
    | .fault f => .fault f
    | .refused r => .refused r

/-- The bytes of a stream, each eaten by the machine's EAT_BYTE (70_reset_and_hazards.md R135). -/
def feed : Bytes → State → Result
  | [], s => .next s
  | b :: bs, s =>
    match exec (.eatByte b) s with
    | .next t => feed bs t
    | .fault f => .fault f
    | .refused r => .refused r

/-! ### What the scan loop does with the cursor -/

/-- The state after an iteration that leaves `read_idx` at `r`: the next iteration, or, when the counted iterations are used
up, E6 and rest (42_ingestion.md R85, R89). -/
def State.loopAt (s : State) (r : Nat) : State :=
  if 1 < s.scanLeft then { s with readIdx := r, scanLeft := s.scanLeft - 1 }
  else if r = s.writeIdx then { s with readIdx := 0, writeIdx := 0, scanLeft := 0 }
  else { s with readIdx := r, scanLeft := 0 }

/-- The state after an iteration that asked for `k` more bytes: the loop is left, E6 runs (42_ingestion.md R86, R89). -/
def State.waitingFor (s : State) (k : Nat) : State :=
  if s.readIdx = s.writeIdx then { s with readIdx := 0, writeIdx := 0, scanLeft := 0, bytesLeft := k }
  else { s with scanLeft := 0, bytesLeft := k }

/-! ### R65's pseudocode, by buffer index -/

/-- DECODE_FRAME(data_len) as 41_frame_scanner.md R65 writes it, over a buffer given as a function of the index. -/
def decodeFrameR65 (n r dataLen : Nat) (buf : Nat → Byte) : ScanOutcome :=
  if dataLen = 0 then .needMoreBytes 1
  else if buf r ≠ 0x02 ∧ buf r ≠ 0x03 then .invalidData .badSelector
  else
    let hdr := if buf r = 0x02 then 2 else 3
    if dataLen < hdr then .needMoreBytes (hdr - dataLen)
    else
      let len := if hdr = 2 then (buf (r + 1)).toNat else (buf (r + 1)).toNat * 256 + (buf (r + 2)).toNat
      if hdr = 2 ∧ len = 0 then .invalidData .zeroLength
      else if hdr = 3 ∧ len < 255 then .invalidData .redundantLength
      else if len > n then .invalidData .exceedsCapacity
      else
        let total := hdr + len + 3
        if dataLen < total then .needMoreBytes (total - dataLen)
        else if buf (r + total - 1) ≠ 0x03 then .invalidData .badTerminator
        else if (crc16 ((List.range len).map fun k => buf (r + hdr + k))).toNat
            ≠ (buf (r + hdr + len)).toNat * 256 + (buf (r + hdr + len + 1)).toNat then .invalidData .crcMismatch
        else .consumed total (r + hdr) (r + hdr + len)

/-! ### R32's ascending copy -/

/-- `buf[dst + k] <- buf[src + k]` for k rising from 0, `n` times, one byte at a time (20_memory.md R32). -/
def State.copyUp (s : State) (src dst : Nat) : Nat → Except Fault State
  | 0 => .ok s
  | n + 1 =>
    match s.readByte src with
    | .error f => .error f
    | .ok b =>
      match s.writeByte dst b with
      | .error f => .error f
      | .ok t => t.copyUp (src + 1) (dst + 1) n

/-! ### CRC16 by other means (40_crc.md R62) -/

/-- One clock of the bit-serial shift register: the stream bit meets bit 15. -/
def crcClock (crc : Half) (bit : Bool) : Half :=
  if crc.msb != bit then (crc <<< 1) ^^^ 0x1021 else crc <<< 1

/-- The bits of a byte as they enter the shift register, bit 7 first. -/
def bitsOf (b : Byte) : List Bool :=
  [b.getLsbD 7, b.getLsbD 6, b.getLsbD 5, b.getLsbD 4, b.getLsbD 3, b.getLsbD 2, b.getLsbD 1, b.getLsbD 0]

/-- The register after every bit of the string, first byte first. -/
def crcBitSerial (s : Bytes) : Half := (s.flatMap bitsOf).foldl crcClock 0

/-- One step of the table-driven computation, where `table[b]` is CRC16 of the one-byte string `b`. -/
def crcTableStep (crc : Half) (b : Byte) : Half := (crc <<< 8) ^^^ crc16 [highByte crc ^^^ b]

/-! ### The decoder as a queue of pending bytes -/

/-- The scan loop on the pending bytes themselves, at most `k` iterations: the payloads emitted, the bytes left pending, and
the hint if a NeedMoreBytes outcome wrote one (42_ingestion.md R85 to R90). -/
def scanQueue (n : Nat) : Nat → Bytes → List Bytes × Bytes × Option Nat
  | 0, bs => ([], bs, none)
  | k + 1, bs =>
    match scanBytes n 0 bs with
    | .needMoreBytes m => ([], bs, some m)
    | .invalidData _ => scanQueue n k (bs.drop 1)
    | .consumed count lo hi =>
      match scanQueue n k (bs.drop count) with
      | (ps, rest, m) => ((bs.drop lo).take (hi - lo) :: ps, rest, m)

/-- EAT_BYTE on a queue of pending bytes and a hint, with no buffer and no cursors: the payloads emitted, the bytes then
pending, and the hint (42_ingestion.md R80, without E2 and E6, which no output shows). -/
def eatQueue (n : Nat) (pending : Bytes) (hint : Nat) (b : Byte) : List Bytes × Bytes × Nat :=
  let queue := (if n ≤ pending.length then [] else pending) ++ [b]
  if 1 < hint then ([], queue, hint - 1)
  else
    match scanQueue n queue.length queue with
    | (ps, rest, m) => (ps, rest, m.getD hint)

end Sys2Proof.Machine
end

