-- ==== Sys2Proof/Certificates/Slice0/Obligations.lean ====
section
/-! DEFINITION. The statements for the provers. Each docstring names the rule of spec/ it rests on. -/

open Sys2Proof Sys2Proof.Machine

/-! ### Encoding -/

/-- A header written by the encoder, whatever follows it, decodes to its instruction: no bit of any row is dropped
(30_encoding.md sections 2, 3 and 8). -/
def Obligations.EncodedHeaderDecodesToItsInstruction : Prop :=
  ∀ (i : Instr) (hb rest : Bytes), encode i = some hb → decode (hb ++ rest) = .instr i

/-- Bytes that decode to an instruction begin with that instruction's encoding (30_encoding.md sections 2, 3 and 8). -/
def Obligations.DecodedBytesBeginWithTheEncoding : Prop :=
  ∀ (bs : Bytes) (i : Instr), decode bs = .instr i → ∃ hb rest, encode i = some hb ∧ bs = hb ++ rest

/-- "the classes are disjoint and cover all 256 values" (30_encoding.md section 8): exactly one row matches a selector, and it
is the row the decoder reads. -/
def Obligations.EverySelectorHasExactlyOneRow : Prop :=
  ∀ sel : Byte,
    (selectorPatterns.filter fun p => sel &&& p.2 == p.1).length = 1 ∧
    ∀ rest i, decode (sel :: rest) = .instr i →
      ∃ p, rowPattern i = some p ∧ p ∈ selectorPatterns ∧ sel &&& p.2 = p.1

/-- A few header words written out from the encoding tables of 30_encoding.md sections 2 and 3. The last clause is the model's
choice, not the tables': a table word shorter than its header is taken with zeros behind it, so its length reads 0 (log entry
5). -/
def Obligations.HeaderWordsOfTheSpecDecode : Prop :=
  decode [0x02, 0x01, 0x41, 0x58, 0xE5, 0x03] = .instr (.short 1) ∧
  decode [0x03, 0x01, 0x00] = .instr (.long 256) ∧
  decode [0x03, 0x00, 0xFE] = .instr (.long 254) ∧
  decode [0x04] = .instr .reserved04 ∧
  decode [0x07] = .instr (.invalid0607 1) ∧
  decode [0xFF] = .instr (.invalid80FF 127) ∧
  decode [0x03, 0x00] = .needMore 1 ∧
  decodeTableWord 8 0x02 = some (.short 0)

/-- All selectors but 0x02 and 0x03 are rejected, whatever byte follows (30_encoding.md section 3, at R45); a machine in its scan
loop gives up that one byte and goes on (42_ingestion.md section 2, at R87). That one step inside the loop is one iteration is
the model's own choice (log entry 5), and that no later byte counts is said as independence of the later bytes, which the model
reads before it judges (log entry 7). -/
def Obligations.OtherSelectorsAreRejectedOnSight : Prop :=
  (∀ (n r : Nat) (sel : Byte) (rest : Bytes), sel ≠ 0x02 → sel ≠ 0x03 →
    scanBytes n r (sel :: rest) = .invalidData .badSelector) ∧
  ∀ s : State, s.Inv → s.scanLeft ≠ 0 → 1 ≤ s.pending → s.byte s.readIdx ≠ 0x02 → s.byte s.readIdx ≠ 0x03 →
    step s = .next (s.loopAt (s.readIdx + 1))

/-! ### CRC16 -/

/-- Leading zero bytes do not change the value, and the values of 40_crc.md's table of corner cases. -/
def Obligations.CrcOfTheCornerCases : Prop :=
  (∀ (k : Nat) (s : Bytes), crc16 (List.replicate k 0x00 ++ s) = crc16 s) ∧
  (∀ k : Nat, crc16 (List.replicate k 0x00) = 0x0000) ∧
  crc16 [0x01] = 0x1021 ∧ crc16 [0x00, 0x01] = 0x1021 ∧ crc16 [0x80] = 0x9188 ∧ crc16 [0xFF] = 0x1EF0 ∧
  crc16 [0x31, 0x32, 0x33, 0x34, 0x35, 0x36, 0x37, 0x38, 0x39] = 0x31C3

/-- CRC16 is the value of "a bit-serial shift register clocked once per stream bit" (40_crc.md, at R62). -/
def Obligations.CrcEqualsTheBitSerialRegister : Prop :=
  ∀ s : Bytes, crc16 s = crcBitSerial s

/-- CRC16 is the value of the computation driven by the table of one-byte CRCs (40_crc.md, at R62), whose first sixteen
entries are those the spec lists. -/
def Obligations.CrcEqualsTheTableDrivenComputation : Prop :=
  (∀ s : Bytes, crc16 s = s.foldl crcTableStep 0) ∧
  ((List.range 16).map fun k => crc16 [BitVec.ofNat 8 k]) =
    [0x0000, 0x1021, 0x2042, 0x3063, 0x4084, 0x50A5, 0x60C6, 0x70E7, 0x8108, 0x9129, 0xA14A, 0xB16B, 0xC18C, 0xD1AD,
     0xE1CE, 0xF1EF]

/-- Dividing payload and CRC field together and testing for 0 "computes the same verdict" (40_crc.md, at R64). -/
def Obligations.CrcResidueTestGivesTheSameVerdict : Prop :=
  ∀ (p : Bytes) (v : Half), crc16 (p ++ [highByte v, lowByte v]) = 0 ↔ crc16 p = v

/-- One flipped bit in the payload or the CRC field of a frame that would be accepted gets the frame rejected (40_crc.md, at
R64; 60_exceptions.md, at R124), for both forms. -/
def Obligations.SingleBitErrorInPayloadOrCrcIsRejected : Prop :=
  ∀ (n r : Nat) (p rest : Bytes) (j k : Nat), p.length ≤ n → k < 8 →
    (1 ≤ p.length → p.length ≤ 255 → 2 ≤ j → j < p.length + 4 →
      scanBytes n r (shortFrame p ++ rest) = .consumed (p.length + 5) (r + 2) (r + 2 + p.length) ∧
      scanBytes n r ((shortFrame p).set j (byteAt (shortFrame p) j ^^^ (1#8 <<< k)) ++ rest) = .invalidData .crcMismatch) ∧
    (255 ≤ p.length → p.length ≤ 65535 → 3 ≤ j → j < p.length + 5 →
      scanBytes n r (longFrame p ++ rest) = .consumed (p.length + 6) (r + 3) (r + 3 + p.length) ∧
      scanBytes n r ((longFrame p).set j (byteAt (longFrame p) j ^^^ (1#8 <<< k)) ++ rest) = .invalidData .crcMismatch)

/-- CRC16 returns the value of the bit-serial register and changes nothing else (40_crc.md section on R60). -/
def Obligations.CrcOperationReturnsItsValue : Prop :=
  ∀ (bs : Bytes) (s : State), exec (.crc16 bs) s = .next { s with result := some (.crc (crcBitSerial bs)) }

/-! ### DECODE_FRAME -/

/-- 41_frame_scanner.md R65: the operation is its pseudocode, and writes nothing but `bytes_left` on NeedMoreBytes. -/
def Obligations.DecodeFrameFollowsItsPseudocode : Prop :=
  ∀ (s : State) (d : Nat), s.Inv → d ≤ s.pending →
    exec (.decodeFrame d) s =
      .next { s with
        bytesLeft :=
          match decodeFrameR65 s.cap s.readIdx d s.byte with
          | .needMoreBytes k => k
          | .invalidData _ => s.bytesLeft
          | .consumed _ _ _ => s.bytesLeft
        result := some (.outcome (decodeFrameR65 s.cap s.readIdx d s.byte)) }

/-- 41_frame_scanner.md R77, from any state: the hint is written with NeedMoreBytes only and is then at least 1; buffer,
cursors and all else stay. -/
def Obligations.DecodeFrameWritesOnlyTheHint : Prop :=
  ∀ (s t : State) (d : Nat), exec (.decodeFrame d) s = .next t →
    t = { s with bytesLeft := t.bytesLeft, result := t.result } ∧
    ((∃ k, 1 ≤ k ∧ t.result = some (.outcome (.needMoreBytes k)) ∧ t.bytesLeft = k) ∨
     (∃ c, t.result = some (.outcome (.invalidData c)) ∧ t.bytesLeft = s.bytesLeft) ∨
     (∃ count lo hi, t.result = some (.outcome (.consumed count lo hi)) ∧ t.bytesLeft = s.bytesLeft))

/-- The scanner's InvalidData or Consumed does not change when more bytes follow (41_frame_scanner.md section 3, at R76). -/
def Obligations.VerdictDoesNotChangeWithMoreBytes : Prop :=
  ∀ (n r : Nat) (bs more : Bytes), (∀ k, scanBytes n r bs ≠ .needMoreBytes k) →
    scanBytes n r (bs ++ more) = scanBytes n r bs

/-- The outcome depends on N and the inspected bytes alone: two instances of one capacity whose inspected bytes agree get the
same outcome, with the payload's range counted from each one's own `read_idx` (41_frame_scanner.md section 3, at R76). -/
def Obligations.OutcomeDependsOnTheInspectedBytesAlone : Prop :=
  ∀ (s₁ s₂ : State) (d : Nat), s₁.Inv → s₂.Inv → s₁.cap = s₂.cap → d ≤ s₁.pending → d ≤ s₂.pending →
    (∀ k, k < d → s₁.byte (s₁.readIdx + k) = s₂.byte (s₂.readIdx + k)) →
    ∃ t₁ t₂, exec (.decodeFrame d) s₁ = .next t₁ ∧ exec (.decodeFrame d) s₂ = .next t₂ ∧
      (∀ k, t₁.result = some (.outcome (.needMoreBytes k)) → t₂.result = some (.outcome (.needMoreBytes k))) ∧
      (∀ c, t₁.result = some (.outcome (.invalidData c)) → t₂.result = some (.outcome (.invalidData c))) ∧
      (∀ count a b, t₁.result = some (.outcome (.consumed count (s₁.readIdx + a) (s₁.readIdx + b))) →
        t₂.result = some (.outcome (.consumed count (s₂.readIdx + a) (s₂.readIdx + b))))

/-! ### The selector classes: one iteration of the scan loop -/

/-- SHORT completes: a whole valid frame at `read_idx` is handed over and passed, for every payload of 1 to 255 bytes
(30_encoding.md section 3; 42_ingestion.md section 2, at R88). The branch that ends the loop is reached at rest only (`scanLeft`
= 0), where a selector class acts as a loop's last iteration: the model's own choice (log entry 5). -/
def Obligations.ShortFrameIsAccepted : Prop :=
  ∀ (s : State) (p rest : Bytes), s.Inv → 1 ≤ p.length → p.length ≤ 255 → s.pendingBytes = shortFrame p ++ rest →
    exec (.short (BitVec.ofNat 8 p.length)) s =
      .next ({ s with sink := s.sink ++ [p] }.loopAt (s.readIdx + (p.length + 5)))

/-- LONG completes: the same, for every payload of 255 to 65535 bytes (30_encoding.md section 3; 42_ingestion.md section 2,
at R88). The branch that ends the loop is reached at rest only (`scanLeft` = 0), where a selector class acts as a loop's last
iteration: the model's own choice (log entry 5). -/
def Obligations.LongFrameIsAccepted : Prop :=
  ∀ (s : State) (p rest : Bytes), s.Inv → 255 ≤ p.length → p.length ≤ 65535 → s.pendingBytes = longFrame p ++ rest →
    exec (.long (BitVec.ofNat 16 p.length)) s =
      .next ({ s with sink := s.sink ++ [p] }.loopAt (s.readIdx + (p.length + 6)))

/-- An illegal length is rejected once the header is present: exactly one byte is given up (30_encoding.md section 6;
42_ingestion.md section 2, at R87). The branch that ends the loop is reached at rest only (`scanLeft` = 0), where a selector
class acts as a loop's last iteration: the model's own choice (log entry 5). -/
def Obligations.IllegalLengthIsRejected : Prop :=
  ∀ s : State, s.Inv →
    (2 ≤ s.pending → exec (.short 0) s = .next (s.loopAt (s.readIdx + 1))) ∧
    (∀ len : Byte, 2 ≤ s.pending → s.cap < len.toNat → exec (.short len) s = .next (s.loopAt (s.readIdx + 1))) ∧
    (∀ len : Half, 3 ≤ s.pending → len.toNat < 255 → exec (.long len) s = .next (s.loopAt (s.readIdx + 1))) ∧
    (∀ len : Half, 3 ≤ s.pending → s.cap < len.toNat → exec (.long len) s = .next (s.loopAt (s.readIdx + 1)))

/-- A wrong terminator or a wrong CRC is rejected once all T bytes are present: exactly one byte is given up, and nothing is
handed over (30_encoding.md section 6; 42_ingestion.md section 2, at R87). The branch that ends the loop is reached at rest only
(`scanLeft` = 0), where a selector class acts as a loop's last iteration: the model's own choice (log entry 5). -/
def Obligations.DamagedFrameIsRejected : Prop :=
  ∀ s : State, s.Inv →
    (∀ len : Byte, 1 ≤ len.toNat → len.toNat ≤ s.cap → len.toNat + 5 ≤ s.pending →
      (s.byte (s.readIdx + len.toNat + 4) ≠ 0x03 ∨
        crc16 ((List.range len.toNat).map fun k => s.byte (s.readIdx + 2 + k)) ≠
          s.byte (s.readIdx + 2 + len.toNat) ++ s.byte (s.readIdx + 3 + len.toNat)) →
      exec (.short len) s = .next (s.loopAt (s.readIdx + 1))) ∧
    (∀ len : Half, 255 ≤ len.toNat → len.toNat ≤ s.cap → len.toNat + 6 ≤ s.pending →
      (s.byte (s.readIdx + len.toNat + 5) ≠ 0x03 ∨
        crc16 ((List.range len.toNat).map fun k => s.byte (s.readIdx + 3 + k)) ≠
          s.byte (s.readIdx + 3 + len.toNat) ++ s.byte (s.readIdx + 4 + len.toNat)) →
      exec (.long len) s = .next (s.loopAt (s.readIdx + 1)))

/-- A candidate that is not whole waits: the loop is left with exactly the missing count in `bytes_left` (41_frame_scanner.md
section 2, at R69 and R72; 42_ingestion.md section 2, at R86). -/
def Obligations.IncompleteFrameWaitsForTheMissingBytes : Prop :=
  ∀ s : State, s.Inv →
    (∀ len : Byte, s.pending = 1 → exec (.short len) s = .next (s.waitingFor 1)) ∧
    (∀ len : Byte, 1 ≤ len.toNat → len.toNat ≤ s.cap → 2 ≤ s.pending → s.pending < len.toNat + 5 →
      exec (.short len) s = .next (s.waitingFor (len.toNat + 5 - s.pending))) ∧
    (∀ len : Half, s.pending = 1 ∨ s.pending = 2 → exec (.long len) s = .next (s.waitingFor (3 - s.pending))) ∧
    (∀ len : Half, 255 ≤ len.toNat → len.toNat ≤ s.cap → 3 ≤ s.pending → s.pending < len.toNat + 6 →
      exec (.long len) s = .next (s.waitingFor (len.toNat + 6 - s.pending)))

/-- The nine invalid classes complete: the rejection is their effect, whatever their free bits are (30_encoding.md section 6;
42_ingestion.md section 2, at R87 and R89). In a loop's last iteration one byte is pending, and giving it up resets the cursors.
At rest (`scanLeft` = 0) a selector class acts as a loop's last iteration, with the cursors left where they are when more than
one byte is pending: the model's own choice (log entry 5). -/
def Obligations.InvalidSelectorGivesUpOneByte : Prop :=
  ∀ s : State, s.Inv → 1 ≤ s.pending →
    exec .reserved04 s = .next (s.loopAt (s.readIdx + 1)) ∧
    (∀ x, exec (.invalid0001 x) s = .next (s.loopAt (s.readIdx + 1))) ∧
    exec .invalid05 s = .next (s.loopAt (s.readIdx + 1)) ∧
    (∀ x, exec (.invalid0607 x) s = .next (s.loopAt (s.readIdx + 1))) ∧
    (∀ x, exec (.invalid080F x) s = .next (s.loopAt (s.readIdx + 1))) ∧
    (∀ x, exec (.invalid101F x) s = .next (s.loopAt (s.readIdx + 1))) ∧
    (∀ x, exec (.invalid203F x) s = .next (s.loopAt (s.readIdx + 1))) ∧
    (∀ x, exec (.invalid407F x) s = .next (s.loopAt (s.readIdx + 1))) ∧
    (∀ x, exec (.invalid80FF x) s = .next (s.loopAt (s.readIdx + 1)))

/-! ### EAT_BYTE -/

/-- The decoder never fails: from every state at rest EAT_BYTE ends at rest with a list of payloads added, RESET ends at
rest, and DECODE_FRAME and CRC16 keep the invariant (60_exceptions.md section 1, at R110). -/
def Obligations.DecoderOperationsNeverFail : Prop :=
  ∀ s : State, s.AtRest →
    (∀ b, ∃ t ps, exec (.eatByte b) s = .next t ∧ t.AtRest ∧ t.sink = s.sink ++ ps) ∧
    (∃ t, exec .reset s = .next t ∧ t.AtRest) ∧
    (∀ d, d ≤ s.pending → ∃ t, exec (.decodeFrame d) s = .next t ∧ t.AtRest) ∧
    (∀ bs, ∃ t, exec (.crc16 bs) s = .next t ∧ t.AtRest)

/-- EAT_BYTE is the decoder seen as a queue of pending bytes: discard when N are pending, append, skip or scan
(42_ingestion.md section 1, at R80); compaction and cursor reset do not show. -/
def Obligations.EatByteRefinesTheQueueDecoder : Prop :=
  ∀ (s : State) (b : Byte), s.AtRest →
    ∃ t, exec (.eatByte b) s = .next t ∧
      t.sink = s.sink ++ (eatQueue s.cap s.pendingBytes s.bytesLeft b).1 ∧
      t.pendingBytes = (eatQueue s.cap s.pendingBytes s.bytesLeft b).2.1 ∧
      t.bytesLeft = (eatQueue s.cap s.pendingBytes s.bytesLeft b).2.2

/-- EAT_BYTE that scans is its preparation E1 to E3 followed by the machine's own steps, one candidate a step: the selector
classes that `step` runs are what EAT_BYTE's loop does (42_ingestion.md sections 1 and 2). The step-wise form is the model's
own (log entry 5). -/
def Obligations.EatByteIsPreparationThenSteps : Prop :=
  ∀ (s t : State) (b : Byte), s.AtRest → s.port = [] → s.bytesLeft ≤ 1 → s.prepare b = .ok t →
    Host.Core.run core t.pending { t with scanLeft := t.pending, result := none } = exec (.eatByte b) s

/-- E4: with a hint above 1 the byte is appended, the hint falls by 1, and nothing is scanned or handed over; the cursors are
those that E1 to E3 leave, `read_idx` where it was and `write_idx` one more while the write cursor is not N (42_ingestion.md
section 2, at R81 to R84). -/
def Obligations.HintSkipAppendsWithoutScanning : Prop :=
  ∀ (s : State) (b : Byte), s.AtRest → 1 < s.bytesLeft →
    ∃ t, exec (.eatByte b) s = .next t ∧ t.bytesLeft = s.bytesLeft - 1 ∧ t.sink = s.sink ∧ t.scanLeft = 0 ∧
      t.readIdx < t.writeIdx ∧ t.cap = s.cap ∧ t.port = s.port ∧ t.result = none ∧
      t.pendingBytes = (if s.pending = s.cap then [] else s.pendingBytes) ++ [b] ∧
      (s.writeIdx ≠ s.cap → t.readIdx = s.readIdx ∧ t.writeIdx = s.writeIdx + 1) ∧
      (s.writeIdx = s.cap → s.pending < s.cap → t.readIdx = 0 ∧ t.writeIdx = s.pending + 1) ∧
      (s.pending = s.cap → t.readIdx = 0 ∧ t.writeIdx = 1)

/-- E1: with N bytes pending all are dropped unscanned and the buffer restarts with the incoming byte alone; `bytes_left` is
not changed by it, so a hint above 1 still skips (42_ingestion.md section 2, at R81). -/
def Obligations.OverflowDiscardRestartsWithTheByte : Prop :=
  ∀ (s : State) (b : Byte), s.AtRest → s.pending = s.cap →
    (1 < s.bytesLeft →
      exec (.eatByte b) s = .next { s with buf := bufSet s.buf 0 b, readIdx := 0, writeIdx := 1,
                                           bytesLeft := s.bytesLeft - 1, result := none }) ∧
    (s.bytesLeft ≤ 1 → b = 0x02 ∨ b = 0x03 →
      exec (.eatByte b) s = .next { s with buf := bufSet s.buf 0 b, readIdx := 0, writeIdx := 1,
                                           bytesLeft := if b = 0x02 then 1 else 2, result := none }) ∧
    (s.bytesLeft ≤ 1 → b ≠ 0x02 → b ≠ 0x03 →
      exec (.eatByte b) s = .next { s with buf := bufSet s.buf 0 b, readIdx := 0, writeIdx := 0, result := none })

/-- E2 runs exactly when the write cursor is N and bytes are pending, and E1 to E3 then leave exactly these cursors. With the
write cursor at N and fewer than N bytes pending, the pending bytes move to index 0 unchanged and in order, the bytes behind
them keep what they held, nothing but buffer and cursors changes, and E3 stores the byte behind them. With the write cursor
below N, E1 and E2 leave the whole state alone, and E3 stores the byte at `write_idx`, which rises by exactly 1, and leaves
every other byte and `read_idx` alone. With N bytes pending both cursors are 0 after E1, E2 leaves that state alone, and E3
stores the byte at index 0 (42_ingestion.md section 2, at R81, R82 and R83; 20_memory.md section 5, at R32). -/
def Obligations.CompactionMovesThePendingBytes : Prop :=
  ∀ s : State, s.AtRest →
    (s.writeIdx = s.cap → s.pending < s.cap →
      ∃ t, s.overflowDiscard.compact = .ok t ∧ t = { s with buf := t.buf, readIdx := 0, writeIdx := s.pending } ∧
        t.pendingBytes = s.pendingBytes ∧ (∀ i, s.pending ≤ i → t.readByte i = s.readByte i) ∧
        ∀ b, ∃ u, s.prepare b = .ok u ∧ u = { s with buf := u.buf, readIdx := 0, writeIdx := s.pending + 1 } ∧
          u.readByte s.pending = .ok b ∧ ∀ i, i ≠ s.pending → u.readByte i = t.readByte i) ∧
    (s.writeIdx ≠ s.cap →
      s.overflowDiscard = s ∧ s.compact = .ok s ∧
      ∀ b, ∃ u, s.prepare b = .ok u ∧ u = { s with buf := u.buf, writeIdx := s.writeIdx + 1 } ∧
        u.readByte s.writeIdx = .ok b ∧ ∀ i, i ≠ s.writeIdx → u.readByte i = s.readByte i) ∧
    (s.pending = s.cap →
      s.overflowDiscard = { s with readIdx := 0, writeIdx := 0 } ∧ s.overflowDiscard.compact = .ok s.overflowDiscard ∧
      ∀ b, ∃ u, s.prepare b = .ok u ∧ u = { s with buf := u.buf, readIdx := 0, writeIdx := 1 } ∧
        u.readByte 0 = .ok b ∧ ∀ i, i ≠ 0 → u.readByte i = s.readByte i)

/-- Compaction is the copy of one byte after another in ascending order, overlap included (20_memory.md section 5, at R32). -/
def Obligations.CompactionIsTheAscendingCopy : Prop :=
  ∀ s : State, s.AtRest → s.writeIdx = s.cap → 0 < s.pending →
    ∃ t, s.copyUp s.readIdx 0 s.pending = .ok t ∧ s.compact = .ok { t with readIdx := 0, writeIdx := s.pending }

/-- After E1 and E2 the write cursor is below N, so E3 never writes outside the buffer (42_ingestion.md section 5, at R96). -/
def Obligations.AppendIsInsideTheBuffer : Prop :=
  ∀ s : State, s.AtRest → ∃ t, s.overflowDiscard.compact = .ok t ∧ t.writeIdx < t.cap ∧ t.cap = s.cap

/-- EAT_BYTE's frame in memory, from any state: every byte reads as before but those compaction moves into place and the one
E3 stores, which reads as the incoming byte (10_state.md section 1, at R10). -/
def Obligations.EatByteStoresOnlyTheMovedBytesAndTheNewOne : Prop :=
  ∀ (s c t : State) (b : Byte), s.overflowDiscard.compact = .ok c → exec (.eatByte b) s = .next t →
    t.readByte c.writeIdx = .ok b ∧
    ∀ a, a ≠ c.writeIdx → ¬ (s.overflowDiscard.compactionDue = true ∧ a < s.overflowDiscard.pending) →
      t.readByte a = s.readByte a

/-- Every payload EAT_BYTE hands over stood in the pending bytes, the new one included, as the payload of a whole frame with
a legal length, its CRC and its terminator (60_exceptions.md section 5, at R124). -/
def Obligations.EmittedPayloadsWereWholeFrames : Prop :=
  ∀ (s t : State) (b : Byte), s.AtRest → exec (.eatByte b) s = .next t →
    ∃ ps, t.sink = s.sink ++ ps ∧ ∀ p ∈ ps, ∃ before behind,
      (1 ≤ p.length ∧ p.length ≤ 255 ∧ s.pendingBytes ++ [b] = before ++ shortFrame p ++ behind) ∨
      (255 ≤ p.length ∧ p.length ≤ 65535 ∧ s.pendingBytes ++ [b] = before ++ longFrame p ++ behind)

/-! ### Streams -/

/-- A received payload's frame fits the buffer, and a capacity below 6 receives nothing (42_ingestion.md section 5, at R98). -/
def Obligations.OnlyFramesThatFitAreReceived : Prop :=
  ∀ (n : Nat) (bs : Bytes) (t : State), capacityLegal n = true → feed bs (State.resetOf n) = .next t →
    (n < 6 → t.sink = []) ∧
    ∀ p ∈ t.sink, 1 ≤ p.length ∧ p.length + 5 ≤ n ∧ (256 ≤ p.length → p.length + 6 ≤ n)

/-- Round trip: the frame COMMIT_FRAME writes for a payload, when it fits the buffer, hands over nothing before its last byte
and exactly the payload at it, and leaves the buffer empty (43_encoder.md section 2, at R107). -/
def Obligations.CommittedFrameIsReceived : Prop :=
  ∀ (s : State) (p f : Bytes), s.AtRest → s.pending = 0 → s.bytesLeft ≤ 1 → commitFrameBytes s.cap p = some f →
    f.length ≤ s.cap →
    (∀ k, k < f.length → ∃ u, feed (f.take k) s = .next u ∧ u.sink = s.sink) ∧
    ∃ t, feed f s = .next t ∧ t.sink = s.sink ++ [p] ∧ t.pending = 0

/-- "Back-to-back frames": any list of payloads whose frames fit, encoded one after another and fed in one pass, is handed
over whole and in order (42_ingestion.md section 3, at R91). -/
def Obligations.BackToBackFramesAreReceivedInOrder : Prop :=
  ∀ (n : Nat) (ps : List Bytes), capacityLegal n = true → (∀ p ∈ ps, 1 ≤ p.length ∧ (encFrame p).length ≤ n) →
    ∃ t, feed (ps.flatMap encFrame) (State.resetOf n) = .next t ∧ t.sink = ps ∧ t.pending = 0

/-- Resynchronisation: junk without a byte 0x02 or 0x03 in front of a frame that fits costs nothing (95_test_vectors.md
section 1, T2, as this spec reads it). -/
def Obligations.JunkBeforeAFrameIsSkipped : Prop :=
  ∀ (n : Nat) (junk p : Bytes), capacityLegal n = true → (∀ b ∈ junk, b ≠ 0x02 ∧ b ≠ 0x03) → 1 ≤ p.length →
    (encFrame p).length ≤ n →
    ∃ t, feed (junk ++ encFrame p) (State.resetOf n) = .next t ∧ t.sink = [p] ∧ t.pending = 0

/-- A frame whose header passes (`L <= N`) but whose T is N + 1 to N + 5 is never handed over, nor anything else of it
(42_ingestion.md section 5, at R98). -/
def Obligations.FrameJustTooLongForTheBufferIsLost : Prop :=
  ∀ (n : Nat) (p : Bytes), capacityLegal n = true → 1 ≤ p.length → p.length ≤ n → n < (encFrame p).length →
    (encFrame p).length ≤ n + 5 →
    ∃ t, feed (encFrame p) (State.resetOf n) = .next t ∧ t.sink = []

/-- The sentence of 43_encoder.md R107 "If `T > N` nothing is emitted", read of every frame COMMIT_FRAME can write. It is
expected to FAIL: a payload with `L > N` is rejected by its length and its own bytes, scanned again, may hold a whole frame.
The statement before this one is the part that holds. -/
def Obligations.EveryFrameLongerThanTheBufferEmitsNothing : Prop :=
  ∀ (n : Nat) (p f : Bytes) (t : State), capacityLegal n = true → commitFrameBytes n p = some f → n < f.length →
    feed f (State.resetOf n) = .next t → t.sink = []

/-- "The hint skip E4 cannot be seen from outside": for every stream (so for every call of it) and every N, the payloads are
those of a decoder that scans on every byte (42_ingestion.md section 5, at R95). -/
def Obligations.HintSkipCannotBeSeen : Prop :=
  ∀ (n : Nat) (bs : Bytes), capacityLegal n = true →
    ∃ t u, feedWith true bs (State.resetOf n) = .next t ∧ feedWith false bs (State.resetOf n) = .next u ∧ t.sink = u.sink

/-- The hint is exact and stays so as long as no overflow discard happens: the scanner, run on the pending bytes, would ask
for exactly `bytes_left` bytes, read as 1 when it is 0 (42_ingestion.md section 5, at R97). -/
def Obligations.HintStaysExactWithoutOverflow : Prop :=
  (∀ n, scanBytes n 0 (State.resetOf n).pendingBytes = .needMoreBytes (State.resetOf n).hint) ∧
  ∀ (s t : State) (b : Byte), s.AtRest → s.pending < s.cap →
    scanBytes s.cap s.readIdx s.pendingBytes = .needMoreBytes s.hint → exec (.eatByte b) s = .next t →
    scanBytes t.cap t.readIdx t.pendingBytes = .needMoreBytes t.hint

/-- The bytes of the buffer outside the pending range, and where in the buffer the pending bytes lie, never reach an output:
two instances at rest with the same capacity, pending bytes and hint hand over the same payloads for every stream
(20_memory.md section 7, at R38). -/
def Obligations.StaleBytesNeverReachTheOutput : Prop :=
  ∀ (s₁ s₂ : State) (bs : Bytes), s₁.AtRest → s₂.AtRest → s₁.cap = s₂.cap → s₁.bytesLeft = s₂.bytesLeft →
    s₁.pendingBytes = s₂.pendingBytes →
    ∃ t₁ t₂ ps, feed bs s₁ = .next t₁ ∧ feed bs s₂ = .next t₂ ∧ t₁.sink = s₁.sink ++ ps ∧ t₂.sink = s₂.sink ++ ps ∧
      t₁.pendingBytes = t₂.pendingBytes ∧ t₁.bytesLeft = t₂.bytesLeft

/-- The first EAT_BYTE after reset, for every N (70_reset_and_hazards.md section 2, at R134: an inference of the spec's own, from
the reset values it decides in 92_eei_decisions.md D9). -/
def Obligations.FirstByteAfterReset : Prop :=
  ∀ (n : Nat) (b : Byte), capacityLegal n = true →
    ∃ t, exec (.eatByte b) (State.resetOf n) = .next t ∧ t.readByte 0 = .ok b ∧ t.sink = [] ∧ t.readIdx = 0 ∧
      (b ≠ 0x02 → b ≠ 0x03 → t.writeIdx = 0 ∧ t.bytesLeft = 0) ∧
      (b = 0x02 → t.writeIdx = 1 ∧ t.bytesLeft = 1) ∧
      (b = 0x03 → t.writeIdx = 1 ∧ t.bytesLeft = 2)

/-! ### RESET -/

/-- 70_reset_and_hazards.md R130, from any state: the three registers are 0 and the buffer is not written. The scan loop in
progress is aborted and nothing is returned (the model's own fields, log entries 4 and 5). -/
def Obligations.ResetClearsTheThreeRegisters : Prop :=
  ∀ s : State,
    exec .reset s = .next { s with readIdx := 0, writeIdx := 0, bytesLeft := 0, scanLeft := 0, result := none }

/-- After RESET the decoder "behaves as a new instance: its later outputs depend only on the bytes that follow"
(70_reset_and_hazards.md section 1, at R131). -/
def Obligations.ResetForgetsTheStream : Prop :=
  ∀ (s r : State) (bs : Bytes), s.Inv → exec .reset s = .next r →
    r.sink = s.sink ∧
    ∃ t u, feed bs r = .next t ∧ feed bs (State.resetOf s.cap) = .next u ∧ t.sink = s.sink ++ u.sink ∧
      t.readIdx = u.readIdx ∧ t.writeIdx = u.writeIdx ∧ t.bytesLeft = u.bytesLeft

/-! ### The encoder -/

/-- 43_encoder.md R100, in any state: the size, or TooBig above 512, and nothing else changes. `SIZE_HINT(0)` is 5. -/
def Obligations.SizeHintGivesTheWireSize : Prop :=
  ∀ (frameLen : Nat) (s : State),
    (frameLen ≤ 255 → exec (.sizeHint frameLen) s = .next { s with result := some (.size (frameLen + 5)) }) ∧
    (256 ≤ frameLen → frameLen ≤ 512 →
      exec (.sizeHint frameLen) s = .next { s with result := some (.size (frameLen + 6)) }) ∧
    (512 < frameLen → exec (.sizeHint frameLen) s = .next { s with result := some (.sizeError .tooBig) })

/-- COMMIT_FRAME completes: the destination holds the frame byte by byte as the tables of 30_encoding.md section 3 lay it
out, keeps its bytes behind the frame, and nothing else of the state changes (43_encoder.md section 2, at R102 and R105). -/
def Obligations.CommitFrameWritesTheFrame : Prop :=
  ∀ (s : State) (p dest : Bytes) (n : Nat), capacityLegal n = true →
    (1 ≤ p.length → p.length ≤ 255 → p.length + 5 ≤ dest.length →
      ∃ d, exec (.commitFrame p dest n) s = .next { s with result := some (.committed d) } ∧
        d.length = dest.length ∧ d[0]? = some 0x02 ∧ d[1]? = some (BitVec.ofNat 8 p.length) ∧
        (∀ k, k < p.length → d[2 + k]? = p[k]?) ∧
        d[2 + p.length]? = some (BitVec.ofNat 8 ((crc16 p).toNat / 256)) ∧
        d[3 + p.length]? = some (BitVec.ofNat 8 (crc16 p).toNat) ∧ d[4 + p.length]? = some 0x03 ∧
        ∀ k, p.length + 5 ≤ k → d[k]? = dest[k]?) ∧
    (256 ≤ p.length → p.length ≤ n → p.length + 6 ≤ dest.length →
      ∃ d, exec (.commitFrame p dest n) s = .next { s with result := some (.committed d) } ∧
        d.length = dest.length ∧ d[0]? = some 0x03 ∧ d[1]? = some (BitVec.ofNat 8 (p.length / 256)) ∧
        d[2]? = some (BitVec.ofNat 8 p.length) ∧
        (∀ k, k < p.length → d[3 + k]? = p[k]?) ∧
        d[3 + p.length]? = some (BitVec.ofNat 8 ((crc16 p).toNat / 256)) ∧
        d[4 + p.length]? = some (BitVec.ofNat 8 (crc16 p).toNat) ∧ d[5 + p.length]? = some 0x03 ∧
        ∀ k, p.length + 6 ≤ k → d[k]? = dest[k]?)

/-- The errors of COMMIT_FRAME and their order: the length first, the space second, the destination unchanged
(43_encoder.md section 2, at R103). -/
def Obligations.CommitFrameErrorsLeaveTheDestination : Prop :=
  ∀ (s : State) (p dest : Bytes) (n : Nat), capacityLegal n = true →
    (p.length = 0 ∨ (256 ≤ p.length ∧ n < p.length) →
      exec (.commitFrame p dest n) s = .next { s with result := some (.commitError .invalidLength dest) }) ∧
    (1 ≤ p.length → p.length ≤ 255 → dest.length < p.length + 5 →
      exec (.commitFrame p dest n) s = .next { s with result := some (.commitError .notEnoughSpace dest) }) ∧
    (256 ≤ p.length → p.length ≤ n → dest.length < p.length + 6 →
      exec (.commitFrame p dest n) s = .next { s with result := some (.commitError .notEnoughSpace dest) })

/-- "Capacity rejection": for every length both operations accept, every destination smaller than SIZE_HINT reports gets
NotEnoughSpace, and every destination of at least the reported size succeeds, so the reported size is the least one accepted
(43_encoder.md section 2, at R103; 95_test_vectors.md section 1, T7, which asks for one byte less and for the size itself). -/
def Obligations.SizeHintIsTheLeastDestination : Prop :=
  ∀ (s : State) (p : Bytes) (n size : Nat), capacityLegal n = true → 1 ≤ p.length → p.length ≤ 255 ∨ p.length ≤ n →
    exec (.sizeHint p.length) s = .next { s with result := some (.size size) } →
    (∀ dest : Bytes, dest.length < size →
      exec (.commitFrame p dest n) s = .next { s with result := some (.commitError .notEnoughSpace dest) }) ∧
    (∀ dest : Bytes, size ≤ dest.length →
      ∃ d, exec (.commitFrame p dest n) s = .next { s with result := some (.committed d) } ∧ d.length = dest.length)

/-! ### Frames and invariants -/

/-- Only EAT_BYTE writes the buffer (10_state.md section 1, at R10): any other instruction leaves every byte reading as
before. -/
def Obligations.OnlyEatByteWritesTheBuffer : Prop :=
  ∀ (i : Instr) (s t : State), exec i s = .next t → (∀ b, i ≠ .eatByte b) →
    t.buf = s.buf ∧ ∀ a, t.readByte a = s.readByte a

/-- CRC16, SIZE_HINT and COMMIT_FRAME touch no decoder state: only the returned value changes (43_encoder.md section 2, at
R108; 40_crc.md section on R60). -/
def Obligations.PureOperationsLeaveTheDecoderAlone : Prop :=
  ∀ (i : Instr) (s t : State), exec i s = .next t →
    (∃ bs, i = .crc16 bs) ∨ (∃ f, i = .sizeHint f) ∨ (∃ p d n, i = .commitFrame p d n) →
    t = { s with result := t.result }

/-- A selector class changes only the cursors, the hint, the loop count and the sink; `write_idx` only to 0, together with
`read_idx` (41_frame_scanner.md section 3, at R77; 42_ingestion.md section 2, at R89). -/
def Obligations.SelectorsLeaveTheRestAlone : Prop :=
  ∀ (i : Instr) (s t : State), i.isOperation = false → exec i s = .next t →
    t = { s with readIdx := t.readIdx, writeIdx := t.writeIdx, bytesLeft := t.bytesLeft, scanLeft := t.scanLeft,
                 sink := t.sink } ∧
    (t.writeIdx = s.writeIdx ∨ (t.writeIdx = 0 ∧ t.readIdx = 0 ∧ t.scanLeft = 0)) ∧
    (t.sink = s.sink ∨ ∃ p, t.sink = s.sink ++ [p])

/-- N "cannot be changed while the hardware runs" (10_state.md section 2, at R16), and payloads handed over stay handed, in
order: no step changes N or anything already in the sink. -/
def Obligations.CapacityAndHandedOverPayloadsStay : Prop :=
  ∀ s t : State, step s = .next t → t.cap = s.cap ∧ ∃ ps, t.sink = s.sink ++ ps

/-- `bytes_left`: "after reset it never returns to 0" (10_state.md section 1, at R13), by any instruction but RESET, from any
state. -/
def Obligations.HintNeverReturnsToZero : Prop :=
  ∀ (i : Instr) (s t : State), exec i s = .next t → i ≠ .reset → 0 < s.bytesLeft → 0 < t.bytesLeft

/-- Every step keeps the invariant: canonical memory inside N bytes, ordered cursors, an empty buffer at index 0 at rest, the
hint's bound (10_state.md section 4; 42_ingestion.md section 5, at R96 and R97). -/
def Obligations.StepKeepsTheInvariant : Prop :=
  ∀ s t : State, s.Inv → step s = .next t → t.Inv

/-- From a state with the invariant a step never faults (20_memory.md section 2, at R27): no access outside the buffer. -/
def Obligations.StepNeverFaultsUnderTheInvariant : Prop :=
  ∀ (s : State) (f : Fault), s.Inv → step s ≠ .fault f

/-- Reset gives the three registers 0 and satisfies the invariant, for every legal N and whatever bytes the buffer holds
(10_state.md section 5, at R20: "unspecified (any bytes)"). That nothing is offered or handed over, and that `State.reset` has
N = 16 and only bytes 0x00 in the buffer, are the model's choices (log entries 1, 3, 4, 6). -/
def Obligations.ResetStateHasTheInvariant : Prop :=
  (∀ n m, capacityLegal n = true → Memory.wf m = true → (∀ c ∈ m, c.1 < n) →
    (State.resetWith n m).AtRest ∧ (State.resetWith n m).pending = 0 ∧
    (State.resetWith n m).readIdx = 0 ∧ (State.resetWith n m).writeIdx = 0 ∧ (State.resetWith n m).bytesLeft = 0 ∧
    ∀ i, i < n → (State.resetWith n m).readByte i = .ok (bufGet m i)) ∧
  State.reset = State.resetWith 16 [] ∧ State.reset.AtRest ∧ ∀ i, i < 16 → State.reset.readByte i = .ok 0x00

/-! ### The step -/

/-- While a scan loop runs, a step fetches the header at `read_idx` and is exactly the decoded instruction; where the header
is not whole it waits for the missing bytes (42_ingestion.md section 2, at R85 and R86). That one step is one iteration of the
loop is the model's own choice (log entry 5): in the spec the loop is inside EAT_BYTE, and no run from reset stops in it. -/
def Obligations.StepRunsTheFetchedInstruction : Prop :=
  ∀ s : State, s.Inv → s.scanLeft ≠ 0 →
    (∀ i, s.fetch = .ok (.instr i) → step s = exec i s) ∧
    (∀ k, s.fetch = .ok (.needMore k) → step s = .next (s.waitingFor k))

/-- At rest a step takes the oldest offered operation and runs it to completion, or is idle (20_memory.md section 7, at R35;
60_exceptions.md section 5, at R123). The queue of offered operations is the model's own (log entry 3). -/
def Obligations.StepTakesTheOldestOperation : Prop :=
  ∀ s : State, s.scanLeft = 0 →
    (∀ op ops, s.port = op :: ops → step s = exec op.instr { s with port := ops }) ∧
    (s.port = [] → step s = .next s)

/-- A table word placed by `withFetchWord` is what the very next step fetches and runs, in any state with the invariant and
room for the longest header. The placing is the model's own (log entry 5). -/
def Obligations.PlacedWordRunsNext : Prop :=
  ∀ (s : State) (nbits w : Nat) (i : Instr), s.Inv → s.readIdx + 3 ≤ s.cap → decodeTableWord nbits w = some i →
    step (s.withFetchWord nbits w) = exec i (s.withFetchWord nbits w)

/-- Calls outside the model's domain are refused by name (93_implementation_defined.md U1, U6, U10, U11): every decoder operation
and every selector class on an instance with an illegal N or on broken cursors, EAT_BYTE inside an EAT_BYTE, DECODE_FRAME on
more than the pending bytes, COMMIT_FRAME with an illegal N. That a call that is outside in two ways gets the first of these
names is the model's choice (log entry 10). -/
def Obligations.CallsOutsideTheDomainAreRefused : Prop :=
  ∀ s : State,
    (∀ b, s.scanLeft ≠ 0 → exec (.eatByte b) s = .refused .reentrantEatByte) ∧
    (∀ d, s.Inv → s.pending < d → exec (.decodeFrame d) s = .refused .dataLenBeyondPending) ∧
    (∀ p dest n, capacityLegal n = false → exec (.commitFrame p dest n) s = .refused .capacityOutOfRange) ∧
    (∀ b, s.scanLeft = 0 → capacityLegal s.cap = false → exec (.eatByte b) s = .refused .capacityOutOfRange) ∧
    (∀ b, s.scanLeft = 0 → capacityLegal s.cap = true → s.writeIdx < s.readIdx ∨ s.cap < s.writeIdx →
      exec (.eatByte b) s = .refused .brokenCursors) ∧
    (∀ d, capacityLegal s.cap = false → exec (.decodeFrame d) s = .refused .capacityOutOfRange) ∧
    (∀ d, capacityLegal s.cap = true → s.writeIdx < s.readIdx ∨ s.cap < s.writeIdx →
      exec (.decodeFrame d) s = .refused .brokenCursors) ∧
    (∀ i : Instr, i.isOperation = false → capacityLegal s.cap = false → exec i s = .refused .capacityOutOfRange) ∧
    (∀ i : Instr, i.isOperation = false → capacityLegal s.cap = true → s.writeIdx < s.readIdx ∨ s.cap < s.writeIdx →
      exec i s = .refused .brokenCursors)
end

