-- ==== Sys2Proof/Laws/State.lean ====
section
/-! SUPPORT. What each named update of the state does to each field. -/

namespace Sys2Proof.Machine

variable (s : State)

/-! ### setCursors -/

@[simp] theorem State.setCursors_cap (r w : Nat) : (s.setCursors r w).cap = s.cap := rfl
@[simp] theorem State.setCursors_buf (r w : Nat) : (s.setCursors r w).buf = s.buf := rfl
@[simp] theorem State.setCursors_readIdx (r w : Nat) : (s.setCursors r w).readIdx = r := rfl
@[simp] theorem State.setCursors_writeIdx (r w : Nat) : (s.setCursors r w).writeIdx = w := rfl
@[simp] theorem State.setCursors_bytesLeft (r w : Nat) : (s.setCursors r w).bytesLeft = s.bytesLeft := rfl
@[simp] theorem State.setCursors_scanLeft (r w : Nat) : (s.setCursors r w).scanLeft = s.scanLeft := rfl
@[simp] theorem State.setCursors_port (r w : Nat) : (s.setCursors r w).port = s.port := rfl
@[simp] theorem State.setCursors_sink (r w : Nat) : (s.setCursors r w).sink = s.sink := rfl
@[simp] theorem State.setCursors_result (r w : Nat) : (s.setCursors r w).result = s.result := rfl

/-! ### setHint -/

@[simp] theorem State.setHint_cap (k : Nat) : (s.setHint k).cap = s.cap := rfl
@[simp] theorem State.setHint_buf (k : Nat) : (s.setHint k).buf = s.buf := rfl
@[simp] theorem State.setHint_readIdx (k : Nat) : (s.setHint k).readIdx = s.readIdx := rfl
@[simp] theorem State.setHint_writeIdx (k : Nat) : (s.setHint k).writeIdx = s.writeIdx := rfl
@[simp] theorem State.setHint_bytesLeft (k : Nat) : (s.setHint k).bytesLeft = k := rfl
@[simp] theorem State.setHint_scanLeft (k : Nat) : (s.setHint k).scanLeft = s.scanLeft := rfl
@[simp] theorem State.setHint_port (k : Nat) : (s.setHint k).port = s.port := rfl
@[simp] theorem State.setHint_sink (k : Nat) : (s.setHint k).sink = s.sink := rfl
@[simp] theorem State.setHint_result (k : Nat) : (s.setHint k).result = s.result := rfl

/-! ### setBuf -/

@[simp] theorem State.setBuf_cap (m : List Host.Cell) : (s.setBuf m).cap = s.cap := rfl
@[simp] theorem State.setBuf_buf (m : List Host.Cell) : (s.setBuf m).buf = m := rfl
@[simp] theorem State.setBuf_readIdx (m : List Host.Cell) : (s.setBuf m).readIdx = s.readIdx := rfl
@[simp] theorem State.setBuf_writeIdx (m : List Host.Cell) : (s.setBuf m).writeIdx = s.writeIdx := rfl
@[simp] theorem State.setBuf_bytesLeft (m : List Host.Cell) : (s.setBuf m).bytesLeft = s.bytesLeft := rfl
@[simp] theorem State.setBuf_scanLeft (m : List Host.Cell) : (s.setBuf m).scanLeft = s.scanLeft := rfl
@[simp] theorem State.setBuf_port (m : List Host.Cell) : (s.setBuf m).port = s.port := rfl
@[simp] theorem State.setBuf_sink (m : List Host.Cell) : (s.setBuf m).sink = s.sink := rfl
@[simp] theorem State.setBuf_result (m : List Host.Cell) : (s.setBuf m).result = s.result := rfl

/-! ### setScan -/

@[simp] theorem State.setScan_cap (k : Nat) : (s.setScan k).cap = s.cap := rfl
@[simp] theorem State.setScan_buf (k : Nat) : (s.setScan k).buf = s.buf := rfl
@[simp] theorem State.setScan_readIdx (k : Nat) : (s.setScan k).readIdx = s.readIdx := rfl
@[simp] theorem State.setScan_writeIdx (k : Nat) : (s.setScan k).writeIdx = s.writeIdx := rfl
@[simp] theorem State.setScan_bytesLeft (k : Nat) : (s.setScan k).bytesLeft = s.bytesLeft := rfl
@[simp] theorem State.setScan_scanLeft (k : Nat) : (s.setScan k).scanLeft = k := rfl
@[simp] theorem State.setScan_port (k : Nat) : (s.setScan k).port = s.port := rfl
@[simp] theorem State.setScan_sink (k : Nat) : (s.setScan k).sink = s.sink := rfl
@[simp] theorem State.setScan_result (k : Nat) : (s.setScan k).result = s.result := rfl

/-! ### setResult -/

@[simp] theorem State.setResult_cap (r : Option OpResult) : (s.setResult r).cap = s.cap := rfl
@[simp] theorem State.setResult_buf (r : Option OpResult) : (s.setResult r).buf = s.buf := rfl
@[simp] theorem State.setResult_readIdx (r : Option OpResult) : (s.setResult r).readIdx = s.readIdx := rfl
@[simp] theorem State.setResult_writeIdx (r : Option OpResult) : (s.setResult r).writeIdx = s.writeIdx := rfl
@[simp] theorem State.setResult_bytesLeft (r : Option OpResult) : (s.setResult r).bytesLeft = s.bytesLeft := rfl
@[simp] theorem State.setResult_scanLeft (r : Option OpResult) : (s.setResult r).scanLeft = s.scanLeft := rfl
@[simp] theorem State.setResult_port (r : Option OpResult) : (s.setResult r).port = s.port := rfl
@[simp] theorem State.setResult_sink (r : Option OpResult) : (s.setResult r).sink = s.sink := rfl
@[simp] theorem State.setResult_result (r : Option OpResult) : (s.setResult r).result = r := rfl

/-! ### setPort -/

@[simp] theorem State.setPort_cap (ops : List Op) : (s.setPort ops).cap = s.cap := rfl
@[simp] theorem State.setPort_buf (ops : List Op) : (s.setPort ops).buf = s.buf := rfl
@[simp] theorem State.setPort_readIdx (ops : List Op) : (s.setPort ops).readIdx = s.readIdx := rfl
@[simp] theorem State.setPort_writeIdx (ops : List Op) : (s.setPort ops).writeIdx = s.writeIdx := rfl
@[simp] theorem State.setPort_bytesLeft (ops : List Op) : (s.setPort ops).bytesLeft = s.bytesLeft := rfl
@[simp] theorem State.setPort_scanLeft (ops : List Op) : (s.setPort ops).scanLeft = s.scanLeft := rfl
@[simp] theorem State.setPort_port (ops : List Op) : (s.setPort ops).port = ops := rfl
@[simp] theorem State.setPort_sink (ops : List Op) : (s.setPort ops).sink = s.sink := rfl
@[simp] theorem State.setPort_result (ops : List Op) : (s.setPort ops).result = s.result := rfl

/-! ### emit -/

@[simp] theorem State.emit_cap (p : Bytes) : (s.emit p).cap = s.cap := rfl
@[simp] theorem State.emit_buf (p : Bytes) : (s.emit p).buf = s.buf := rfl
@[simp] theorem State.emit_readIdx (p : Bytes) : (s.emit p).readIdx = s.readIdx := rfl
@[simp] theorem State.emit_writeIdx (p : Bytes) : (s.emit p).writeIdx = s.writeIdx := rfl
@[simp] theorem State.emit_bytesLeft (p : Bytes) : (s.emit p).bytesLeft = s.bytesLeft := rfl
@[simp] theorem State.emit_scanLeft (p : Bytes) : (s.emit p).scanLeft = s.scanLeft := rfl
@[simp] theorem State.emit_port (p : Bytes) : (s.emit p).port = s.port := rfl
@[simp] theorem State.emit_sink (p : Bytes) : (s.emit p).sink = s.sink ++ [p] := rfl
@[simp] theorem State.emit_result (p : Bytes) : (s.emit p).result = s.result := rfl

end Sys2Proof.Machine
end

