-- ==== Sys2Proof/Laws/Memory.lean ====
section
/-! SUPPORT. The buffer: read after write, the canonical form, and what MemRead and MemWrite can do. -/

namespace Sys2Proof.Machine

/-! ### Cells -/

theorem bufGet_bufInsert (m : List Host.Cell) (i j : Nat) (b : Byte) :
    bufGet (bufInsert m i b) j = if j = i then b else bufGet m j := by
  induction m with
  | nil => simp [bufInsert, bufGet]
  | cons c m ih =>
    unfold bufInsert
    split
    · simp [bufGet]
    · split
      · subst_vars
        simp only [bufGet]
        split <;> rfl
      · rename_i h1 h2
        simp only [bufGet, ih]
        split
        · split
          · omega
          · rfl
        · rfl

theorem bufGet_bufErase (m : List Host.Cell) (i j : Nat) :
    bufGet (bufErase m i) j = if j = i then Config.resetByte else bufGet m j := by
  induction m with
  | nil => simp [bufErase, bufGet]
  | cons c m ih =>
    unfold bufErase
    split
    · subst_vars
      rw [ih]
      split
      · rfl
      · rename_i h
        simp [bufGet, h]
    · rename_i h
      simp only [bufGet, ih]
      split
      · split
        · omega
        · rfl
      · rfl

/-- Read after write, at any two indices. -/
theorem bufGet_bufSet (m : List Host.Cell) (i j : Nat) (b : Byte) :
    bufGet (bufSet m i b) j = if j = i then b else bufGet m j := by
  unfold bufSet
  split
  · subst_vars
    exact bufGet_bufErase m i j
  · exact bufGet_bufInsert m i j b

theorem bufGet_bufSet_same (m : List Host.Cell) (i : Nat) (b : Byte) : bufGet (bufSet m i b) i = b := by
  simp [bufGet_bufSet]

theorem bufGet_bufSet_other (m : List Host.Cell) (i j : Nat) (b : Byte) (h : j ≠ i) :
    bufGet (bufSet m i b) j = bufGet m j := by
  simp [bufGet_bufSet, h]

/-! ### The canonical form -/

/-- The canonical form of a list that begins with a cell. -/
theorem canonicalFrom_cons (k : Nat) (c : Host.Cell) (m : List Host.Cell) :
    canonicalFrom k (c :: m) = true ↔ k ≤ c.1 ∧ c.2 ≠ Config.resetByte ∧ canonicalFrom (c.1 + 1) m = true := by
  simp [canonicalFrom, and_assoc]

theorem canonicalFrom_mono (m : List Host.Cell) (j k : Nat) (hjk : j ≤ k) (h : canonicalFrom k m = true) :
    canonicalFrom j m = true := by
  cases m with
  | nil => rfl
  | cons c m =>
    obtain ⟨h1, h2⟩ := (canonicalFrom_cons k c m).1 h
    exact (canonicalFrom_cons j c m).2 ⟨by omega, h2⟩

theorem canonicalFrom_bufInsert (m : List Host.Cell) (k i : Nat) (b : Byte) (hk : k ≤ i) (hb : b ≠ Config.resetByte)
    (h : canonicalFrom k m = true) : canonicalFrom k (bufInsert m i b) = true := by
  induction m generalizing k with
  | nil => simp [bufInsert, canonicalFrom, hk, hb]
  | cons c m ih =>
    obtain ⟨h1, h2, h3⟩ := (canonicalFrom_cons k c m).1 h
    unfold bufInsert
    split
    · exact (canonicalFrom_cons _ _ _).2 ⟨hk, hb, (canonicalFrom_cons _ _ _).2 ⟨by simp only; omega, h2, h3⟩⟩
    · split
      · subst_vars
        exact (canonicalFrom_cons _ _ _).2 ⟨hk, hb, h3⟩
      · exact (canonicalFrom_cons _ _ _).2 ⟨h1, h2, ih _ (by omega) h3⟩

theorem canonicalFrom_bufErase (m : List Host.Cell) (k i : Nat) (h : canonicalFrom k m = true) :
    canonicalFrom k (bufErase m i) = true := by
  induction m generalizing k with
  | nil => rfl
  | cons c m ih =>
    obtain ⟨h1, h2, h3⟩ := (canonicalFrom_cons k c m).1 h
    unfold bufErase
    split
    · exact canonicalFrom_mono _ k (c.1 + 1) (by omega) (ih _ h3)
    · exact (canonicalFrom_cons _ _ _).2 ⟨h1, h2, ih _ h3⟩

/-- A write keeps the canonical form. -/
theorem wf_bufSet (m : List Host.Cell) (i : Nat) (b : Byte) (h : Memory.wf m = true) :
    Memory.wf (bufSet m i b) = true := by
  unfold bufSet
  split
  · exact canonicalFrom_bufErase m 0 i h
  · exact canonicalFrom_bufInsert m 0 i b (Nat.zero_le i) ‹_› h

theorem wf_reset : Memory.wf State.reset.buf = true := rfl

/-- Below the first index it may list, a canonical list reads as unlisted. -/
theorem bufGet_below (m : List Host.Cell) (k i : Nat) (h : canonicalFrom k m = true) (hi : i < k) :
    bufGet m i = Config.resetByte := by
  induction m generalizing k with
  | nil => rfl
  | cons c m ih =>
    obtain ⟨h1, -, h3⟩ := (canonicalFrom_cons k c m).1 h
    unfold bufGet
    rw [if_neg (by omega)]
    exact ih _ h3 (by omega)

/-- Equal memories are equal data: two canonical lists that read the same at every index are the same list. -/
theorem canonicalFrom_ext (m₁ m₂ : List Host.Cell) (k : Nat) (h₁ : canonicalFrom k m₁ = true)
    (h₂ : canonicalFrom k m₂ = true) (h : ∀ i, bufGet m₁ i = bufGet m₂ i) : m₁ = m₂ := by
  induction m₁ generalizing m₂ k with
  | nil =>
    cases m₂ with
    | nil => rfl
    | cons d m₂ =>
      have := h d.1
      simp only [bufGet, ↓reduceIte] at this
      exact absurd this.symm ((canonicalFrom_cons _ _ _).1 h₂).2.1
  | cons c m₁ ih =>
    obtain ⟨-, hc, h₁⟩ := (canonicalFrom_cons _ _ _).1 h₁
    cases m₂ with
    | nil =>
      have := h c.1
      simp only [bufGet, ↓reduceIte] at this
      exact absurd this hc
    | cons d m₂ =>
      obtain ⟨-, hd, h₂⟩ := (canonicalFrom_cons _ _ _).1 h₂
      have hcd := h c.1
      have hdc := h d.1
      simp only [bufGet, ↓reduceIte] at hcd hdc
      have e : c.1 = d.1 := by
        rcases Nat.lt_trichotomy c.1 d.1 with hlt | heq | hgt
        · rw [if_neg (by omega), bufGet_below m₂ _ _ h₂ (by omega)] at hcd
          exact absurd hcd hc
        · exact heq
        · rw [if_neg (by omega), bufGet_below m₁ _ _ h₁ (by omega)] at hdc
          exact absurd hdc.symm hd
      rw [if_pos e] at hcd
      obtain rfl : c = d := Prod.ext e hcd
      congr 1
      refine ih m₂ (c.1 + 1) h₁ h₂ fun i => ?_
      by_cases hi : i = c.1
      · rw [bufGet_below m₁ _ _ h₁ (by omega), bufGet_below m₂ _ _ h₂ (by omega)]
      · simpa only [bufGet, hi, ↓reduceIte] using h i

/-- A write lists no index but its own. -/
theorem mem_bufSet (m : List Host.Cell) (i : Nat) (b : Byte) (c : Host.Cell) (h : c ∈ bufSet m i b) :
    c = (i, b) ∨ c ∈ m := by
  unfold bufSet at h
  split at h
  · refine .inr ?_
    induction m with
    | nil => exact h
    | cons d m ih =>
      unfold bufErase at h
      split at h
      · exact List.mem_cons_of_mem _ (ih h)
      · rcases List.mem_cons.1 h with h | h
        · exact List.mem_cons.2 (.inl h)
        · exact List.mem_cons_of_mem _ (ih h)
  · induction m with
    | nil => exact .inl (List.mem_singleton.1 h)
    | cons d m ih =>
      unfold bufInsert at h
      split at h
      · exact List.mem_cons.1 h
      · split at h
        · exact (List.mem_cons.1 h).imp_right (List.mem_cons_of_mem _)
        · rcases List.mem_cons.1 h with h | h
          · exact .inr (List.mem_cons.2 (.inl h))
          · exact (ih h).imp_right (List.mem_cons_of_mem _)

/-! ### Byte accesses of a state -/

/-- A byte read answers exactly below N, with the byte at that index. -/
theorem readByte_eq_ok (s : State) (i : Nat) (b : Byte) :
    s.readByte i = .ok b ↔ i < s.cap ∧ bufGet s.buf i = b := by
  unfold State.readByte
  split
  · simp only [reduceCtorEq, false_iff]
    omega
  · simp only [Except.ok.injEq]
    exact ⟨fun h => ⟨by omega, h⟩, fun h => h.2⟩

/-- A byte write answers exactly below N, and changes the buffer's cells alone. -/
theorem writeByte_eq_ok (s t : State) (i : Nat) (b : Byte) :
    s.writeByte i b = .ok t ↔ i < s.cap ∧ t = s.setBuf (bufSet s.buf i b) := by
  unfold State.writeByte
  split
  · simp only [reduceCtorEq, false_iff]
    omega
  · simp only [Except.ok.injEq]
    exact ⟨fun h => ⟨by omega, h.symm⟩, fun h => h.2.symm⟩

/-! ### Byte strings -/

/-- MemRead(i, n): n bytes, the k-th of them the byte read at i + k. -/
theorem memRead_spec (s : State) (i n : Nat) (bs : Bytes) (h : s.memRead i n = .ok bs) :
    bs.length = n ∧ ∀ k, k < n → ∃ b, bs[k]? = some b ∧ s.readByte (i + k) = .ok b := by
  induction n generalizing i bs with
  | zero =>
    cases h
    simp
  | succ n ih =>
    unfold State.memRead at h
    split at h
    · cases h
    · rename_i b hb
      split at h
      · cases h
      · rename_i bs' hbs
        cases h
        obtain ⟨hl, hk⟩ := ih (i + 1) bs' hbs
        refine ⟨by simp [hl], ?_⟩
        intro k hk'
        cases k with
        | zero => exact ⟨b, by simp, by simpa using hb⟩
        | succ k =>
          obtain ⟨b', h1, h2⟩ := hk k (by omega)
          exact ⟨b', by simpa using h1, by rw [show i + (k + 1) = i + 1 + k by omega]; exact h2⟩

/-- MemRead(i, n) answers where all its indices are below N. -/
theorem memRead_total (s : State) (i n : Nat) (h : i + n ≤ s.cap) : ∃ bs, s.memRead i n = .ok bs := by
  induction n generalizing i with
  | zero => exact ⟨[], rfl⟩
  | succ n ih =>
    have hb : s.readByte i = .ok (bufGet s.buf i) := (readByte_eq_ok _ _ _).2 ⟨by omega, rfl⟩
    obtain ⟨bs, hbs⟩ := ih (i + 1) (by omega)
    exact ⟨bufGet s.buf i :: bs, by simp [State.memRead, hb, hbs]⟩

/-- MemRead sees the buffer's cells and N alone. -/
theorem memRead_congr (s t : State) (i n : Nat) (hc : t.cap = s.cap) (hb : t.buf = s.buf) :
    t.memRead i n = s.memRead i n := by
  have hr : ∀ j, t.readByte j = s.readByte j := fun j => by simp only [State.readByte, hc, hb]
  induction n generalizing i with
  | zero => rfl
  | succ n ih => simp only [State.memRead, hr, ih]

/-- MemWrite(i, _, bs): only the buffer's cells change; indices i, i+1, … hold bs, every other index what it held; the
canonical form and the range of the indices are kept. -/
theorem memWrite_spec (s t : State) (i : Nat) (bs : Bytes) (h : s.memWrite i bs = .ok t) :
    t = s.setBuf t.buf ∧
    (∀ k b, bs[k]? = some b → bufGet t.buf (i + k) = b) ∧
    (∀ j, j < i ∨ i + bs.length ≤ j → bufGet t.buf j = bufGet s.buf j) ∧
    (Memory.wf s.buf = true → Memory.wf t.buf = true) ∧
    ((∀ c ∈ s.buf, c.1 < s.cap) → ∀ c ∈ t.buf, c.1 < t.cap) := by
  induction bs generalizing s i with
  | nil =>
    cases h
    exact ⟨rfl, by simp, fun _ _ => rfl, id, id⟩
  | cons b bs ih =>
    unfold State.memWrite at h
    split at h
    · cases h
    · rename_i u hu
      obtain ⟨hi, rfl⟩ := (writeByte_eq_ok s u i b).1 hu
      obtain ⟨h1, h2, h3, h4, h5⟩ := ih _ (i + 1) h
      refine ⟨by rw [h1]; rfl, ?_, ?_, ?_, ?_⟩
      · intro k b' hk
        cases k with
        | zero =>
          have hb' : b = b' := by simpa using hk
          rw [Nat.add_zero, h3 i (by omega)]
          simp [bufGet_bufSet_same, hb']
        | succ k =>
          rw [show i + (k + 1) = i + 1 + k by omega]
          exact h2 k b' (by simpa using hk)
      · intro j hj
        simp only [List.length_cons] at hj
        rw [h3 j (by omega)]
        exact bufGet_bufSet_other _ _ _ _ (by omega)
      · intro hw
        exact h4 (wf_bufSet _ _ _ hw)
      · intro hc
        refine h5 fun c hcm => ?_
        rcases mem_bufSet _ _ _ _ hcm with rfl | hm
        · exact hi
        · exact hc c hm

/-- MemWrite answers where all its indices are below N. -/
theorem memWrite_total (s : State) (i : Nat) (bs : Bytes) (h : i + bs.length ≤ s.cap) :
    ∃ t, s.memWrite i bs = .ok t := by
  induction bs generalizing s i with
  | nil => exact ⟨s, rfl⟩
  | cons b bs ih =>
    simp only [List.length_cons] at h
    have hw : s.writeByte i b = .ok (s.setBuf (bufSet s.buf i b)) := (writeByte_eq_ok _ _ _ _).2 ⟨by omega, rfl⟩
    obtain ⟨t, ht⟩ := ih (s.setBuf (bufSet s.buf i b)) (i + 1) (by simp only [State.setBuf_cap]; omega)
    exact ⟨t, by simp [State.memWrite, hw, ht]⟩

end Sys2Proof.Machine
end

