-- ==== Sys2Proof/Laws/Ops.lean ====
section
/-! SUPPORT. What each shared operation can do, said once: the domain check, E1 to E3, the loop's bookkeeping, the answers to
the scanner's outcomes, the scan loop, EAT_BYTE, and the step. -/

namespace Sys2Proof.Machine

/-! ### The domain and the plumbing -/

/-- The model's domain: a legal N and ordered cursors inside the buffer. -/
theorem domainRefusal_eq_none (s : State) :
    s.domainRefusal = none ↔ capacityLegal s.cap = true ∧ s.readIdx ≤ s.writeIdx ∧ s.writeIdx ≤ s.cap := by
  unfold State.domainRefusal
  cases hc : capacityLegal s.cap
  · simp
  · simp only [Bool.not_true, Bool.false_eq_true, ↓reduceIte, true_and, Bool.or_eq_true, decide_eq_true_eq]
    split
    · simp only [reduceCtorEq, false_iff]
      omega
    · simp only [true_iff]
      omega

/-- Inside the domain `guarded` goes on. -/
theorem guarded_of_none {s : State} {k : Result} (h : s.domainRefusal = none) : guarded s k = k := by
  simp [guarded, h]

/-- A guarded operation that answers a next state was inside the domain and went on. -/
theorem guarded_eq_next {s t : State} {k : Result} (h : guarded s k = .next t) :
    s.domainRefusal = none ∧ k = .next t := by
  unfold guarded at h
  split at h
  · cases h
  · exact ⟨‹_›, h⟩

/-- `orFault` answers a next state only through the value of its access. -/
theorem orFault_eq_next {α : Type} {x : Except Fault α} {k : α → Result} {t : State} (h : orFault x k = .next t) :
    ∃ a, x = .ok a ∧ k a = .next t := by
  cases x with
  | error f => cases h
  | ok a => exact ⟨a, rfl, h⟩

/-! ### E1 to E3 -/

/-- E1 keeps the buffer and everything but the cursors; afterwards fewer than N bytes are pending (N at least 1). -/
theorem overflowDiscard_cases (s : State) :
    (s.cap ≤ s.pending ∧ s.overflowDiscard = s.setCursors 0 0) ∨ (s.pending < s.cap ∧ s.overflowDiscard = s) := by
  unfold State.overflowDiscard
  split
  · exact .inl ⟨‹_›, rfl⟩
  · exact .inr ⟨by omega, rfl⟩

/-- Compaction's trigger, as a proposition. -/
theorem compactionDue_iff (s : State) : s.compactionDue = true ↔ s.writeIdx = s.cap ∧ 0 < s.pending := by
  simp [State.compactionDue]

/-- E2, if it answers `t`: either it was not due and did nothing, or the pending bytes `bs` stand at index 0, bytes from
`pending` on are as before, and only buffer and cursors changed. -/
theorem compact_cases {s t : State} (h : s.compact = .ok t) :
    (s.compactionDue = false ∧ t = s) ∨
    (s.compactionDue = true ∧ ∃ bs, s.memRead s.readIdx s.pending = .ok bs ∧
      t = (s.setBuf t.buf).setCursors 0 s.pending ∧
      (∀ k b, bs[k]? = some b → bufGet t.buf k = b) ∧
      (∀ j, s.pending ≤ j → bufGet t.buf j = bufGet s.buf j) ∧
      (Memory.wf s.buf = true → Memory.wf t.buf = true) ∧
      ((∀ c ∈ s.buf, c.1 < s.cap) → ∀ c ∈ t.buf, c.1 < t.cap)) := by
  unfold State.compact at h
  split at h
  · rename_i hd
    split at h
    · cases h
    · rename_i bs hbs
      split at h
      · cases h
      · rename_i u hu
        cases h
        obtain ⟨h1, h2, h3, h4, h5⟩ := memWrite_spec _ _ _ _ hu
        have hl := (memRead_spec _ _ _ _ hbs).1
        refine .inr ⟨hd, bs, hbs, ?_, ?_, ?_, h4, h5⟩
        · rw [h1]
          rfl
        · intro k b hk
          simpa using h2 k b hk
        · intro j hj
          exact h3 j (by omega)
  · cases h
    exact .inl ⟨Bool.eq_false_iff.2 ‹_›, rfl⟩

/-- E3, if it answers: the write cursor was below N, the byte stands there, and the cursor rose by 1. -/
theorem append_eq_ok (s t : State) (b : Byte) :
    s.append b = .ok t ↔
      s.writeIdx < s.cap ∧ t = (s.setBuf (bufSet s.buf s.writeIdx b)).setCursors s.readIdx (s.writeIdx + 1) := by
  unfold State.append
  split
  · rename_i f hf
    constructor
    · intro h; cases h
    · intro h
      rw [(writeByte_eq_ok s _ s.writeIdx b).2 ⟨h.1, rfl⟩] at hf
      cases hf
  · rename_i u hu
    obtain ⟨hi, rfl⟩ := (writeByte_eq_ok s u s.writeIdx b).1 hu
    simp only [Except.ok.injEq]
    exact ⟨fun h => ⟨hi, h.symm⟩, fun h => h.2.symm⟩

/-- Steps E1 to E3 in order. -/
theorem prepare_eq_ok (s t : State) (b : Byte) :
    s.prepare b = .ok t ↔ ∃ u, s.overflowDiscard.compact = .ok u ∧ u.append b = .ok t := by
  unfold State.prepare
  split
  · rename_i h
    simp [h]
  · rename_i u h
    simp [h]

/-! ### The scan loop's bookkeeping -/

/-- E6 and rest, by the two cases of the cursors. -/
theorem finishScan_cases (s : State) :
    (s.readIdx = s.writeIdx ∧ s.finishScan = (s.setCursors 0 0).setScan 0) ∨
    (s.readIdx ≠ s.writeIdx ∧ s.finishScan = s.setScan 0) := by
  unfold State.finishScan State.cursorReset
  split
  · exact .inl ⟨‹_›, rfl⟩
  · exact .inr ⟨‹_›, rfl⟩

/-- After an iteration that did not leave the loop: another one, or E6 and rest when none is left. -/
theorem nextIteration_cases (s : State) :
    (s.scanLeft ≤ 1 ∧ s.nextIteration = s.finishScan) ∨
    (1 < s.scanLeft ∧ s.nextIteration = s.setScan (s.scanLeft - 1)) := by
  unfold State.nextIteration
  split
  · exact .inl ⟨‹_›, rfl⟩
  · exact .inr ⟨by omega, rfl⟩

@[simp] theorem finishScan_scanLeft (s : State) : s.finishScan.scanLeft = 0 := rfl

@[simp] theorem finishScan_buf (s : State) : s.finishScan.buf = s.buf := by
  rcases finishScan_cases s with ⟨_, h⟩ | ⟨_, h⟩ <;> rw [h] <;> rfl

@[simp] theorem finishScan_cap (s : State) : s.finishScan.cap = s.cap := by
  rcases finishScan_cases s with ⟨_, h⟩ | ⟨_, h⟩ <;> rw [h] <;> rfl

@[simp] theorem finishScan_bytesLeft (s : State) : s.finishScan.bytesLeft = s.bytesLeft := by
  rcases finishScan_cases s with ⟨_, h⟩ | ⟨_, h⟩ <;> rw [h] <;> rfl

@[simp] theorem finishScan_sink (s : State) : s.finishScan.sink = s.sink := by
  rcases finishScan_cases s with ⟨_, h⟩ | ⟨_, h⟩ <;> rw [h] <;> rfl

@[simp] theorem finishScan_port (s : State) : s.finishScan.port = s.port := by
  rcases finishScan_cases s with ⟨_, h⟩ | ⟨_, h⟩ <;> rw [h] <;> rfl

@[simp] theorem finishScan_result (s : State) : s.finishScan.result = s.result := by
  rcases finishScan_cases s with ⟨_, h⟩ | ⟨_, h⟩ <;> rw [h] <;> rfl

@[simp] theorem nextIteration_buf (s : State) : s.nextIteration.buf = s.buf := by
  rcases nextIteration_cases s with ⟨_, h⟩ | ⟨_, h⟩ <;> rw [h] <;> simp

@[simp] theorem nextIteration_cap (s : State) : s.nextIteration.cap = s.cap := by
  rcases nextIteration_cases s with ⟨_, h⟩ | ⟨_, h⟩ <;> rw [h] <;> simp

@[simp] theorem nextIteration_bytesLeft (s : State) : s.nextIteration.bytesLeft = s.bytesLeft := by
  rcases nextIteration_cases s with ⟨_, h⟩ | ⟨_, h⟩ <;> rw [h] <;> simp

@[simp] theorem nextIteration_sink (s : State) : s.nextIteration.sink = s.sink := by
  rcases nextIteration_cases s with ⟨_, h⟩ | ⟨_, h⟩ <;> rw [h] <;> simp

@[simp] theorem nextIteration_port (s : State) : s.nextIteration.port = s.port := by
  rcases nextIteration_cases s with ⟨_, h⟩ | ⟨_, h⟩ <;> rw [h] <;> simp

@[simp] theorem nextIteration_result (s : State) : s.nextIteration.result = s.result := by
  rcases nextIteration_cases s with ⟨_, h⟩ | ⟨_, h⟩ <;> rw [h] <;> simp

/-! ### The answers to the scanner's outcomes -/

/-- One iteration's answer, if it is a next state: wait, give up one byte, or hand over the payload and pass the frame. -/
theorem respond_eq_next {o : ScanOutcome} {s t : State} (h : respond o s = .next t) :
    (∃ k, o = .needMoreBytes k ∧ t = (s.setHint k).finishScan) ∨
    (∃ c, o = .invalidData c ∧ t = (s.setCursors (s.readIdx + 1) s.writeIdx).nextIteration) ∨
    (∃ count lo hi p, o = .consumed count lo hi ∧ s.memRead lo (hi - lo) = .ok p ∧
      t = ((s.emit p).setCursors (s.readIdx + count) s.writeIdx).nextIteration) := by
  unfold respond at h
  split at h
  · cases h
    exact .inl ⟨_, rfl, rfl⟩
  · cases h
    exact .inr (.inl ⟨_, rfl, rfl⟩)
  · obtain ⟨p, hp, ht⟩ := orFault_eq_next h
    cases ht
    exact .inr (.inr ⟨_, _, _, p, rfl, hp, rfl⟩)

/-- A scan of all pending bytes, if it answers a next state. -/
theorem scanStep_eq_next {judge : Bytes → ScanOutcome} {s t : State} (h : scanStep judge s = .next t) :
    s.domainRefusal = none ∧ ∃ bs, s.memRead s.readIdx s.pending = .ok bs ∧ respond (judge bs) s = .next t := by
  obtain ⟨hd, h⟩ := guarded_eq_next h
  exact ⟨hd, orFault_eq_next h⟩

/-- What any iteration leaves alone, and that it adds at most one payload. -/
theorem respond_frame {o : ScanOutcome} {s t : State} (h : respond o s = .next t) :
    t.cap = s.cap ∧ t.buf = s.buf ∧ t.port = s.port ∧ t.result = s.result ∧
    (t.sink = s.sink ∨ ∃ p, t.sink = s.sink ++ [p]) := by
  rcases respond_eq_next h with ⟨k, -, rfl⟩ | ⟨c, -, rfl⟩ | ⟨count, lo, hi, p, -, -, rfl⟩
  · exact ⟨by simp, by simp, by simp, by simp, .inl (by simp)⟩
  · exact ⟨by simp, by simp, by simp, by simp, .inl (by simp)⟩
  · exact ⟨by simp, by simp, by simp, by simp, .inr ⟨p, by simp⟩⟩

/-! ### The scan loop and EAT_BYTE -/

/-- A fetch answers the decoding of the header bytes at `read_idx`. -/
theorem fetch_eq_ok (s : State) (d : Decoded) :
    s.fetch = .ok d ↔ ∃ bs, s.memRead s.readIdx (min maxHeader s.pending) = .ok bs ∧ decode bs = d := by
  unfold State.fetch
  split
  · rename_i h
    simp [h]
  · rename_i bs h
    simp [h]

/-- One iteration with `run` as the meaning of a decoded header, if it answers a next state. -/
theorem scanOnceWith_eq_next {run : Instr → State → Result} {s t : State} (h : scanOnceWith run s = .next t) :
    s.domainRefusal = none ∧
    ((∃ i, s.fetch = .ok (.instr i) ∧ run i s = .next t) ∨
     (∃ k, s.fetch = .ok (.needMore k) ∧ t = (s.setHint k).finishScan)) := by
  obtain ⟨hd, h⟩ := guarded_eq_next h
  obtain ⟨d, hf, h⟩ := orFault_eq_next h
  refine ⟨hd, ?_⟩
  cases d with
  | instr i => exact .inl ⟨i, hf, h⟩
  | needMore k =>
    cases h
    exact .inr ⟨k, hf, rfl⟩

/-- The meaning of a decoded header inside EAT_BYTE is `exec`'s, for every selector class. -/
theorem runSelector_eq_exec (i : Instr) (s : State) (h : i.isOperation = false) : runSelector i s = exec i s := by
  cases i
  all_goals first | rfl | exact Bool.noConfusion h

/-- Every selector class is a scan of all pending bytes under a judgement of its own. -/
theorem runSelector_eq_scanStep (i : Instr) (s : State) (h : i.isOperation = false) :
    ∃ judge, runSelector i s = scanStep judge s := by
  cases i
  all_goals first | exact ⟨_, rfl⟩ | exact Bool.noConfusion h

/-- The decoder never yields an operation. -/
theorem decode_isOperation {bs : Bytes} {i : Instr} (h : decode bs = .instr i) : i.isOperation = false := by
  unfold decode at h
  split at h
  · cases h
  · split at h
    · split at h
      · cases h
      · cases h
        rfl
    · split at h
      · split at h
        · cases h
        · cases h
        · cases h
          rfl
      · cases h
        unfold decodeInvalid
        repeat' split
        all_goals rfl

/-- So one iteration of E5 is one iteration with `exec`. -/
theorem scanOnce_eq_exec (s : State) : scanOnce s = scanOnceWith exec s := by
  have hk : ∀ d, s.fetch = .ok d →
      (match d with | .instr i => runSelector i s | .needMore k => respond (.needMoreBytes k) s) =
      (match d with | .instr i => exec i s | .needMore k => respond (.needMoreBytes k) s) := by
    intro d hd
    cases d with
    | needMore k => rfl
    | instr i =>
      obtain ⟨bs, -, hdec⟩ := (fetch_eq_ok s _).1 hd
      exact runSelector_eq_exec i s (decode_isOperation hdec)
  unfold scanOnce scanOnceWith guarded
  split
  · rfl
  · cases hf : s.fetch with
    | error f => rfl
    | ok d => exact hk d hf

/-- The scan loop, one iteration unrolled. -/
theorem runScan_succ_eq_next {k : Nat} {s t : State} (h : runScan (k + 1) s = .next t) :
    (s.scanLeft = 0 ∧ t = s) ∨ (s.scanLeft ≠ 0 ∧ ∃ u, scanOnce s = .next u ∧ runScan k u = .next t) := by
  unfold runScan at h
  split at h
  · cases h
    exact .inl ⟨‹_›, rfl⟩
  · split at h
    · exact .inr ⟨‹_›, _, ‹_›, h⟩
    · cases h
    · cases h

/-- Induction over the scan loop: what one iteration keeps, the loop keeps. -/
theorem runScan_keeps {P : State → Prop} (hstep : ∀ s t, P s → scanOnce s = .next t → P t) (k : Nat) (s t : State)
    (hs : P s) (h : runScan k s = .next t) : P t := by
  induction k generalizing s with
  | zero =>
    cases h
    exact hs
  | succ k ih =>
    rcases runScan_succ_eq_next h with ⟨-, rfl⟩ | ⟨-, u, hu, hr⟩
    · exact hs
    · exact ih u (hstep s u hs hu) hr

/-- EAT_BYTE, if it answers a next state: it began at rest inside the domain, E1 to E3 answered, and then either E4 skipped
or the scan loop ran. -/
theorem eatByteWith_eq_next {hint : Bool} {b : Byte} {s t : State} (h : eatByteWith hint b s = .next t) :
    s.scanLeft = 0 ∧ s.domainRefusal = none ∧ ∃ u, (s.setResult none).prepare b = .ok u ∧
      ((hint = true ∧ 1 < u.bytesLeft ∧ t = u.setHint (u.bytesLeft - 1)) ∨
       (¬ (hint = true ∧ 1 < u.bytesLeft) ∧ runScan u.pending (u.setScan u.pending) = .next t)) := by
  unfold eatByteWith at h
  split at h
  · cases h
  · rename_i hs
    obtain ⟨hd, h⟩ := guarded_eq_next h
    obtain ⟨u, hu, h⟩ := orFault_eq_next h
    refine ⟨by simpa using hs, hd, u, hu, ?_⟩
    split at h
    · rename_i hc
      cases h
      simp only [Bool.and_eq_true, decide_eq_true_eq] at hc
      exact .inl ⟨hc.1, hc.2, rfl⟩
    · rename_i hc
      simp only [Bool.and_eq_true, decide_eq_true_eq] at hc
      exact .inr ⟨hc, h⟩

/-! ### The other operations and the step -/

/-- DECODE_FRAME, if it answers a next state. -/
theorem execDecodeFrame_eq_next {d : Nat} {s t : State} (h : execDecodeFrame d s = .next t) :
    s.domainRefusal = none ∧ d ≤ s.pending ∧ ∃ bs, s.memRead s.readIdx d = .ok bs ∧
      t = (s.noteOutcome (scanBytes s.cap s.readIdx bs)).setResult (some (.outcome (scanBytes s.cap s.readIdx bs))) := by
  obtain ⟨hd, h⟩ := guarded_eq_next h
  refine ⟨hd, ?_⟩
  split at h
  · cases h
  · obtain ⟨bs, hbs, h⟩ := orFault_eq_next h
    cases h
    exact ⟨by omega, bs, hbs, rfl⟩

/-- COMMIT_FRAME, if it answers a next state. -/
theorem execCommitFrame_eq_next {p dest : Bytes} {n : Nat} {s t : State} (h : execCommitFrame p dest n s = .next t) :
    capacityLegal n = true ∧ t = s.setResult (some (commitFrame n p dest)) := by
  unfold execCommitFrame at h
  split at h
  · cases h
    exact ⟨‹_›, rfl⟩
  · cases h

/-- A step, if it answers a next state: an iteration of the loop in progress, the oldest operation, or idling. -/
theorem step_eq_next {s t : State} (h : step s = .next t) :
    (s.scanLeft ≠ 0 ∧ scanOnceWith exec s = .next t) ∨
    (s.scanLeft = 0 ∧ ∃ op ops, s.port = op :: ops ∧ exec op.instr (s.setPort ops) = .next t) ∨
    (s.scanLeft = 0 ∧ s.port = [] ∧ t = s) := by
  unfold step stepWith at h
  split at h
  · exact .inl ⟨‹_›, h⟩
  · rename_i hs
    simp only [ne_eq, not_not] at hs
    split at h
    · cases h
      exact .inr (.inr ⟨hs, ‹_›, rfl⟩)
    · exact .inr (.inl ⟨hs, _, _, ‹_›, h⟩)

/-! ### The canonical form of the memory -/

/-- Placing bytes keeps the canonical form. -/
theorem wf_bufFill (m : List Host.Cell) (i : Nat) (bs : Bytes) (h : Memory.wf m = true) :
    Memory.wf (bufFill m i bs) = true := by
  induction bs generalizing m i with
  | nil => exact h
  | cons b bs ih => exact ih _ _ (wf_bufSet _ _ _ h)

/-- Placing bytes lists no index but their own. -/
theorem mem_bufFill (m : List Host.Cell) (i : Nat) (bs : Bytes) (c : Host.Cell) (h : c ∈ bufFill m i bs) :
    (i ≤ c.1 ∧ c.1 < i + bs.length) ∨ c ∈ m := by
  induction bs generalizing m i with
  | nil => exact .inr h
  | cons b bs ih =>
    simp only [List.length_cons]
    rcases ih _ _ h with h | h
    · exact .inl (by omega)
    · rcases mem_bufSet _ _ _ _ h with rfl | h
      · exact .inl (by simp only; omega)
      · exact .inr h

/-- Placed bytes read back, and every other index reads as before. -/
theorem bufGet_bufFill (m : List Host.Cell) (i j : Nat) (bs : Bytes) :
    bufGet (bufFill m i bs) j = if i ≤ j then bs.getD (j - i) (bufGet m j) else bufGet m j := by
  induction bs generalizing m i with
  | nil => simp [bufFill]
  | cons b bs ih =>
    rw [bufFill, ih, bufGet_bufSet]
    rcases Nat.lt_trichotomy i j with h | h | h
    · rw [if_pos (by omega), if_neg (by omega), if_pos (by omega), show j - i = j - (i + 1) + 1 by omega]
      rfl
    · subst h
      simp
    · rw [if_neg (by omega), if_neg (by omega), if_neg (by omega)]

/-- E1 to E3 keep the canonical form. -/
theorem wf_prepare {s t : State} {b : Byte} (hw : Memory.wf s.buf = true) (h : s.prepare b = .ok t) :
    Memory.wf t.buf = true := by
  obtain ⟨u, hu, ht⟩ := (prepare_eq_ok s t b).1 h
  obtain ⟨-, rfl⟩ := (append_eq_ok u t b).1 ht
  have hd : s.overflowDiscard.buf = s.buf := by
    rcases overflowDiscard_cases s with ⟨-, e⟩ | ⟨-, e⟩ <;> (rw [e]; try rfl)
  have hu' : Memory.wf u.buf = true := by
    rcases compact_cases hu with ⟨-, rfl⟩ | ⟨-, bs, -, -, -, -, h4, -⟩
    · rw [hd]
      exact hw
    · exact h4 (by rw [hd]; exact hw)
  exact wf_bufSet _ _ _ hu'

/-- One iteration of the scan loop does not touch the buffer. -/
theorem scanOnce_buf {s t : State} (h : scanOnce s = .next t) : t.buf = s.buf := by
  obtain ⟨-, ⟨i, hf, hr⟩ | ⟨k, -, rfl⟩⟩ := scanOnceWith_eq_next h
  · obtain ⟨bs, -, hdec⟩ := (fetch_eq_ok s _).1 hf
    obtain ⟨judge, hj⟩ := runSelector_eq_scanStep i s (decode_isOperation hdec)
    obtain ⟨-, bs', -, hresp⟩ := scanStep_eq_next (hj.symm.trans hr)
    exact (respond_frame hresp).2.1
  · simp

end Sys2Proof.Machine
end

