-- ==== Sys2Proof/Laws/PerInstr.lean ====
section
/-! SUPPORT. The family RowPattern, one lemma per constructor: the selector byte an instruction is encoded with matches its
own row of spec/opcode_table.json. -/

namespace Sys2Proof.Laws

/-- The encoding, where the row has one, begins with a byte that the row's match and mask accept. -/
def RowPattern.Statement (i : Instr) : Prop :=
  ∀ hb, encode i = some hb → ∃ sel rest p, hb = sel :: rest ∧ rowPattern i = some p ∧ sel &&& p.2 = p.1

theorem RowPattern.short (len : Byte) : RowPattern.Statement (.short len) := by
  rintro _ ⟨⟩
  exact ⟨_, _, _, rfl, rfl, by decide⟩

theorem RowPattern.long (len : Half) : RowPattern.Statement (.long len) := by
  rintro _ ⟨⟩
  exact ⟨_, _, _, rfl, rfl, by decide⟩

theorem RowPattern.reserved04 : RowPattern.Statement .reserved04 := by
  rintro _ ⟨⟩
  exact ⟨_, _, _, rfl, rfl, by decide⟩

theorem RowPattern.invalid0001 (x : BitVec 1) : RowPattern.Statement (.invalid0001 x) := by
  rintro _ ⟨⟩
  refine ⟨_, _, _, rfl, rfl, ?_⟩
  revert x
  decide

theorem RowPattern.invalid05 : RowPattern.Statement .invalid05 := by
  rintro _ ⟨⟩
  exact ⟨_, _, _, rfl, rfl, by decide⟩

theorem RowPattern.invalid0607 (x : BitVec 1) : RowPattern.Statement (.invalid0607 x) := by
  rintro _ ⟨⟩
  refine ⟨_, _, _, rfl, rfl, ?_⟩
  revert x
  decide

theorem RowPattern.invalid080F (x : BitVec 3) : RowPattern.Statement (.invalid080F x) := by
  rintro _ ⟨⟩
  refine ⟨_, _, _, rfl, rfl, ?_⟩
  revert x
  decide

theorem RowPattern.invalid101F (x : BitVec 4) : RowPattern.Statement (.invalid101F x) := by
  rintro _ ⟨⟩
  refine ⟨_, _, _, rfl, rfl, ?_⟩
  revert x
  decide

theorem RowPattern.invalid203F (x : BitVec 5) : RowPattern.Statement (.invalid203F x) := by
  rintro _ ⟨⟩
  refine ⟨_, _, _, rfl, rfl, ?_⟩
  revert x
  decide

theorem RowPattern.invalid407F (x : BitVec 6) : RowPattern.Statement (.invalid407F x) := by
  rintro _ ⟨⟩
  refine ⟨_, _, _, rfl, rfl, ?_⟩
  revert x
  decide

theorem RowPattern.invalid80FF (x : BitVec 7) : RowPattern.Statement (.invalid80FF x) := by
  rintro _ ⟨⟩
  refine ⟨_, _, _, rfl, rfl, ?_⟩
  revert x
  decide

theorem RowPattern.reset : RowPattern.Statement .reset := by
  rintro _ ⟨⟩

theorem RowPattern.eatByte (b : Byte) : RowPattern.Statement (.eatByte b) := by
  rintro _ ⟨⟩

theorem RowPattern.decodeFrame (d : Nat) : RowPattern.Statement (.decodeFrame d) := by
  rintro _ ⟨⟩

theorem RowPattern.crc16 (s : Bytes) : RowPattern.Statement (.crc16 s) := by
  rintro _ ⟨⟩

theorem RowPattern.sizeHint (f : Nat) : RowPattern.Statement (.sizeHint f) := by
  rintro _ ⟨⟩

theorem RowPattern.commitFrame (p d : Bytes) (n : Nat) : RowPattern.Statement (.commitFrame p d n) := by
  rintro _ ⟨⟩

end Sys2Proof.Laws
end

