-- ==== Sys2Proof/Laws/Scan.lean ====
section
/-! SUPPORT. What the CRC and the scanner's outcome can be: accumulation over appended strings, and one inversion lemma for
each outcome of S1 to S9. -/

namespace Sys2Proof.Machine

/-! ### CRC16 -/

/-- Working the number out first changes nothing. -/
@[simp] theorem evalFirst_eq {α : Type} (x : Half) (k : Half → α) : evalFirst x k = k x := by
  unfold evalFirst
  split
  · rename_i h
    exact congrArg k (BitVec.eq_of_toNat_eq (by simpa using h.symm))
  · rename_i n h
    rw [show n + 1 = x.toNat from h.symm, BitVec.ofNat_toNat, BitVec.setWidth_eq]

/-- The eight shifts and the bytes, one after the other, without `evalFirst`. -/
@[simp] theorem crcShifts_succ (n : Nat) (crc : Half) : crcShifts (n + 1) crc = crcShifts n (crcShift crc) :=
  evalFirst_eq _ _

@[simp] theorem crcFrom_cons (crc : Half) (b : Byte) (s : Bytes) : crcFrom crc (b :: s) = crcFrom (crcByte crc b) s :=
  evalFirst_eq _ _

/-- The accumulator runs over appended strings one after the other. -/
theorem crcFrom_append (crc : Half) (s u : Bytes) : crcFrom crc (s ++ u) = crcFrom (crcFrom crc s) u := by
  induction s generalizing crc with
  | nil => rfl
  | cons b s ih => simp [ih]

/-- Initial value and final XOR are 0, so CRC16 is the bare accumulation. -/
theorem crc16_eq_crcFrom (s : Bytes) : crc16 s = crcFrom 0 s := by
  simp [crc16, Config.crcInit, Config.crcFinalXor]

/-! ### S5 to S9 -/

/-- The five ways S5 to S9 can end. -/
theorem judgeBody_cases (n r hdr len : Nat) (bs : Bytes) :
    (n < len ∧ judgeBody n r hdr len bs = .invalidData .exceedsCapacity) ∨
    (len ≤ n ∧ bs.length < totalLen hdr len ∧
      judgeBody n r hdr len bs = .needMoreBytes (totalLen hdr len - bs.length)) ∨
    (len ≤ n ∧ totalLen hdr len ≤ bs.length ∧ terminatorOf hdr len bs ≠ Config.terminator ∧
      judgeBody n r hdr len bs = .invalidData .badTerminator) ∨
    (len ≤ n ∧ totalLen hdr len ≤ bs.length ∧ terminatorOf hdr len bs = Config.terminator ∧
      crc16 (payloadOf hdr len bs) ≠ rxCrc hdr len bs ∧ judgeBody n r hdr len bs = .invalidData .crcMismatch) ∨
    (len ≤ n ∧ totalLen hdr len ≤ bs.length ∧ terminatorOf hdr len bs = Config.terminator ∧
      crc16 (payloadOf hdr len bs) = rxCrc hdr len bs ∧
      judgeBody n r hdr len bs = .consumed (totalLen hdr len) (r + hdr) (r + hdr + len)) := by
  unfold judgeBody
  split
  · exact .inl ⟨‹_›, rfl⟩
  · split
    · exact .inr (.inl ⟨by omega, ‹_›, rfl⟩)
    · split
      · exact .inr (.inr (.inl ⟨by omega, by omega, ‹_›, rfl⟩))
      · split
        · exact .inr (.inr (.inr (.inl ⟨by omega, by omega, not_not.1 ‹_›, ‹_›, rfl⟩)))
        · exact .inr (.inr (.inr (.inr ⟨by omega, by omega, not_not.1 ‹_›, not_not.1 ‹_›, rfl⟩)))

/-! ### S1 to S4 -/

/-- A whole header: the stages S1 and S3 are passed. -/
theorem withHeader_of_le {hdr : Nat} {bs : Bytes} (o : ScanOutcome) (h1 : 1 ≤ hdr) (h : hdr ≤ bs.length) :
    withHeader hdr bs o = o := by
  unfold withHeader
  rw [if_neg (by omega), if_neg (by omega)]

/-- The forms a decoded candidate can have: the bytes begin with that row's header. -/
theorem decode_cases (bs : Bytes) :
    (bs = [] ∧ decode bs = .needMore 1) ∨
    (bs = [0x02] ∧ decode bs = .needMore 1) ∨
    (bs = [0x03] ∧ decode bs = .needMore 2) ∨
    (∃ h, bs = [0x03, h] ∧ decode bs = .needMore 1) ∨
    (∃ l rest, bs = 0x02 :: l :: rest ∧ decode bs = .instr (.short l)) ∨
    (∃ h l rest, bs = 0x03 :: h :: l :: rest ∧ decode bs = .instr (.long (be16 h l))) ∨
    (∃ sel rest, bs = sel :: rest ∧ sel ≠ 0x02 ∧ sel ≠ 0x03 ∧ decode bs = .instr (decodeInvalid sel)) := by
  cases bs with
  | nil => exact .inl ⟨rfl, rfl⟩
  | cons sel rest =>
    by_cases h2 : sel = 0x02
    · subst h2
      cases rest with
      | nil => exact .inr (.inl ⟨rfl, rfl⟩)
      | cons l rest => exact .inr (.inr (.inr (.inr (.inl ⟨l, rest, rfl, rfl⟩))))
    · by_cases h3 : sel = 0x03
      · subst h3
        match rest with
        | [] => exact .inr (.inr (.inl ⟨rfl, rfl⟩))
        | [h] => exact .inr (.inr (.inr (.inl ⟨h, rfl, rfl⟩)))
        | h :: l :: rest => exact .inr (.inr (.inr (.inr (.inr (.inl ⟨h, l, rest, rfl, rfl⟩)))))
      · refine .inr (.inr (.inr (.inr (.inr (.inr ⟨sel, rest, rfl, h2, h3, ?_⟩)))))
        exact (if_neg h2).trans (if_neg h3)

/-- An invalid selector's row is neither SHORT nor LONG. -/
theorem decodeInvalid_ne (sel : Byte) : (∀ l, decodeInvalid sel ≠ .short l) ∧ ∀ l, decodeInvalid sel ≠ .long l := by
  unfold decodeInvalid
  constructor <;> intro l <;> repeat' split
  all_goals simp

/-- Every selector but SHORT's and LONG's has a row that is judged by the bad selector alone. -/
theorem decodeInvalid_judged (n r : Nat) (sel : Byte) (bs : Bytes) (h : decode bs = .instr (decodeInvalid sel)) :
    scanBytes n r bs = judgeBadSelector bs := by
  unfold scanBytes
  rw [h]
  obtain ⟨hs, hl⟩ := decodeInvalid_ne sel
  generalize decodeInvalid sel = i at hs hl
  cases i <;> first | rfl | exact absurd rfl (hs _) | exact absurd rfl (hl _)

/-- The scanner's verdict, by the header's forms: what is missing, SHORT, LONG, or a bad selector. -/
theorem scanBytes_cases (n r : Nat) (bs : Bytes) :
    (∃ k, 1 ≤ k ∧ k ≤ 2 ∧ decode bs = .needMore k ∧ bs.length < 3 ∧ scanBytes n r bs = .needMoreBytes k) ∨
    (∃ l rest, bs = 0x02 :: l :: rest ∧
      ((l = 0 ∧ scanBytes n r bs = .invalidData .zeroLength) ∨
       (l ≠ 0 ∧ scanBytes n r bs = judgeBody n r 2 l.toNat bs))) ∨
    (∃ h l rest, bs = 0x03 :: h :: l :: rest ∧
      (((be16 h l).toNat < 255 ∧ scanBytes n r bs = .invalidData .redundantLength) ∨
       (255 ≤ (be16 h l).toNat ∧ scanBytes n r bs = judgeBody n r 3 (be16 h l).toNat bs))) ∨
    (∃ sel rest, bs = sel :: rest ∧ sel ≠ 0x02 ∧ sel ≠ 0x03 ∧ scanBytes n r bs = .invalidData .badSelector) := by
  rcases decode_cases bs with ⟨e, hd⟩ | ⟨e, hd⟩ | ⟨e, hd⟩ | ⟨h, e, hd⟩ | ⟨l, rest, e, hd⟩ | ⟨h, l, rest, e, hd⟩ |
    ⟨sel, rest, e, h2, h3, hd⟩
  · exact .inl ⟨1, by omega, by omega, hd, by simp [e], by simp [scanBytes, hd]⟩
  · exact .inl ⟨1, by omega, by omega, hd, by simp [e], by simp [scanBytes, hd]⟩
  · exact .inl ⟨2, by omega, by omega, hd, by simp [e], by simp [scanBytes, hd]⟩
  · exact .inl ⟨1, by omega, by omega, hd, by simp [e], by simp [scanBytes, hd]⟩
  · refine .inr (.inl ⟨l, rest, e, ?_⟩)
    have hj : scanBytes n r bs = judgeShort n r l bs := by simp [scanBytes, hd]
    rw [hj, judgeShort, withHeader_of_le _ (by decide) (by simp [e, shortHdr])]
    by_cases h0 : l = 0
    · exact .inl ⟨h0, if_pos h0⟩
    · exact .inr ⟨h0, if_neg h0⟩
  · refine .inr (.inr (.inl ⟨h, l, rest, e, ?_⟩))
    have hj : scanBytes n r bs = judgeLong n r (be16 h l) bs := by simp [scanBytes, hd]
    rw [hj, judgeLong, withHeader_of_le _ (by decide) (by simp [e, longHdr])]
    by_cases h0 : (be16 h l).toNat < 255
    · exact .inl ⟨h0, if_pos h0⟩
    · exact .inr ⟨by omega, if_neg h0⟩
  · refine .inr (.inr (.inr ⟨sel, rest, e, h2, h3, ?_⟩))
    rw [decodeInvalid_judged n r sel bs hd, judgeBadSelector, withHeader_of_le _ (by decide) (by simp [e])]

/-- Consumed: the candidate's `T` bytes are there, the payload is not empty and not longer than N, and its range lies
`hdr` behind the candidate's start. -/
theorem scanBytes_eq_consumed {n r count lo hi : Nat} {bs : Bytes} (h : scanBytes n r bs = .consumed count lo hi) :
    ∃ hdr len, (hdr = 2 ∨ hdr = 3) ∧ 1 ≤ len ∧ len ≤ n ∧ count = hdr + len + 3 ∧ count ≤ bs.length ∧ lo = r + hdr ∧
      hi = r + hdr + len ∧ terminatorOf hdr len bs = Config.terminator ∧
      crc16 (payloadOf hdr len bs) = rxCrc hdr len bs := by
  have body : ∀ hdr len, (hdr = 2 ∨ hdr = 3) → 1 ≤ len → judgeBody n r hdr len bs = .consumed count lo hi →
      ∃ hdr len, (hdr = 2 ∨ hdr = 3) ∧ 1 ≤ len ∧ len ≤ n ∧ count = hdr + len + 3 ∧ count ≤ bs.length ∧ lo = r + hdr ∧
        hi = r + hdr + len ∧ terminatorOf hdr len bs = Config.terminator ∧
        crc16 (payloadOf hdr len bs) = rxCrc hdr len bs := by
    intro hdr len hh hl hb
    rcases judgeBody_cases n r hdr len bs with ⟨-, e⟩ | ⟨-, -, e⟩ | ⟨-, -, -, e⟩ | ⟨-, -, -, -, e⟩ | ⟨h1, h2, h3, h4, e⟩ <;>
      rw [hb] at e <;> cases e
    exact ⟨hdr, len, hh, hl, h1, rfl, h2, rfl, rfl, h3, h4⟩
  rcases scanBytes_cases n r bs with ⟨k, -, -, -, -, e⟩ | ⟨l, rest, -, ⟨-, e⟩ | ⟨h0, e⟩⟩ | ⟨a, l, rest, -, ⟨-, e⟩ | ⟨h0, e⟩⟩ |
    ⟨sel, rest, -, -, -, e⟩ <;> rw [h] at e
  · cases e
  · cases e
  · refine body 2 l.toNat (.inl rfl) ?_ e.symm
    rcases Nat.eq_zero_or_pos l.toNat with hz | hz
    · exact absurd (BitVec.eq_of_toNat_eq (by simpa using hz)) h0
    · exact hz
  · cases e
  · exact body 3 _ (.inr rfl) (by omega) e.symm
  · cases e

/-- NeedMoreBytes: at least 1 and at most N + 3 bytes are asked for (N at least 1). -/
theorem scanBytes_eq_needMore {n r k : Nat} {bs : Bytes} (h : scanBytes n r bs = .needMoreBytes k) :
    1 ≤ k ∧ k ≤ n + 3 := by
  have body : ∀ hdr len, hdr ≤ bs.length → judgeBody n r hdr len bs = .needMoreBytes k → 1 ≤ k ∧ k ≤ n + 3 := by
    intro hdr len hh hb
    rcases judgeBody_cases n r hdr len bs with ⟨-, e⟩ | ⟨h1, h2, e⟩ | ⟨-, -, -, e⟩ | ⟨-, -, -, -, e⟩ | ⟨-, -, -, -, e⟩ <;>
      rw [hb] at e <;> cases e
    unfold totalLen at *
    omega
  rcases scanBytes_cases n r bs with ⟨j, h1, h2, -, -, e⟩ | ⟨l, rest, eb, ⟨-, e⟩ | ⟨-, e⟩⟩ | ⟨a, l, rest, eb, ⟨-, e⟩ | ⟨-, e⟩⟩ |
    ⟨sel, rest, -, -, -, e⟩ <;> rw [h] at e
  · cases e
    omega
  · cases e
  · exact body 2 _ (by simp [eb]) e.symm
  · cases e
  · exact body 3 _ (by simp [eb]) e.symm
  · cases e

/-- InvalidData: there is a byte to give up. -/
theorem scanBytes_eq_invalid {n r : Nat} {c : InvalidCause} {bs : Bytes} (h : scanBytes n r bs = .invalidData c) :
    1 ≤ bs.length := by
  rcases scanBytes_cases n r bs with ⟨j, -, -, -, -, e⟩ | ⟨l, rest, eb, -⟩ | ⟨a, l, rest, eb, -⟩ | ⟨sel, rest, eb, -⟩
  · rw [h] at e
    cases e
  · simp [eb]
  · simp [eb]
  · simp [eb]

end Sys2Proof.Machine
end

