-- ==== Sys2Proof/Tests/Slice0.lean ====
section
/-! SUPPORT. The model's own tests: ill-formed terms refused, header words of the spec decoded, worked examples of
95_test_vectors.md one step at a time, and for every statement with hypotheses a state that meets them. -/

set_option Elab.async false

namespace Sys2Proof.Tests

open Sys2Proof.Machine

/-! ### Helpers -/

/-- An instance of capacity `n` whose buffer begins with `bytes`. -/
def inst (n r w hint scan : Nat) (bytes : Bytes) : State :=
  { State.resetOf n with buf := bufFill [] 0 bytes, readIdx := r, writeIdx := w, bytesLeft := hint, scanLeft := scan }

/-- An instance of capacity `n` in its scan loop, with exactly `bytes` pending from index 0 on. -/
def scanning (n : Nat) (bytes : Bytes) : State := inst n 0 bytes.length 0 bytes.length bytes

/-- Such an instance meets the invariant whenever the bytes fit. -/
theorem scanning_inv (n : Nat) (bytes : Bytes) (hn : capacityLegal n = true) (h0 : bytes ≠ []) (h : bytes.length ≤ n) :
    (scanning n bytes).Inv := by
  refine ⟨wf_bufFill [] 0 bytes rfl, ?_, hn, Nat.zero_le _, h, ?_, ?_, Nat.zero_le _⟩
  · intro c hc
    rcases mem_bufFill [] 0 bytes c hc with hm | hm
    · exact Nat.lt_of_lt_of_le (by omega) h
    · cases hm
  · intro hs
    exact absurd (List.length_eq_zero_iff.1 hs) h0
  · intro _
    simp [scanning, inst, State.pending]

theorem scanning_pendingBytes (n : Nat) (bytes : Bytes) : (scanning n bytes).pendingBytes = bytes := by
  apply List.ext_getElem
  · simp [State.pendingBytes, State.pending, scanning, inst]
  · intro i h1 h2
    simp [State.pendingBytes, State.byte, scanning, inst, bufGet_bufFill, h2]

/-- The next state, if the outcome is one. -/
def next? : Result → Option State
  | .next t => some t
  | .fault _ => none
  | .refused _ => none

/-- `(read_idx, write_idx, bytes_left)` and the payloads handed over, if the outcome is a next state. -/
def triple (x : Result) : Option (Nat × Nat × Nat × List Bytes) :=
  (next? x).map fun t => (t.readIdx, t.writeIdx, t.bytesLeft, t.sink)

/-- The buffer's bytes from index 0 on and the cursors, if the outcome is a next state. -/
def memory (x : Result) : Option (Bytes × Nat × Nat × Nat) :=
  (next? x).map fun t => (t.buf.map Prod.snd, t.readIdx, t.writeIdx, t.bytesLeft)

/-- What the operation returned. -/
def returned (x : Result) : Option OpResult := (next? x).bind fun t => t.result

theorem exists_next {x : Result} (h : (next? x).isSome = true) : ∃ t, x = .next t := by
  cases x with
  | next t => exact ⟨t, rfl⟩
  | fault f => cases h
  | refused r => cases h

/-- `ENC("A")` (95_test_vectors.md V82). -/
def frameA : Bytes := [0x02, 0x01, 0x41, 0x58, 0xE5, 0x03]

/-- A LONG frame of 255 bytes `AA` up to its last byte (95_test_vectors.md V42). -/
def longAA : Bytes := [0x03, 0x00, 0xFF] ++ List.replicate 255 0xAA ++ [0x93, 0xB4, 0x03]

/-! ### Well-formedness: what the checks refuse, and the boundary they accept -/

theorem test_wf_short_zero : (Instr.short 0).wellFormed = false := by decide +kernel
theorem test_wf_short_one : (Instr.short 1).wellFormed = true := by decide +kernel
theorem test_wf_long_254 : (Instr.long 254).wellFormed = false := by decide +kernel
theorem test_wf_long_255 : (Instr.long 255).wellFormed = true := by decide +kernel
theorem test_wf_commit_zero : (Instr.commitFrame [] [] 0).wellFormed = false := by decide +kernel
theorem test_wf_commit_too_large : (Instr.commitFrame [] [] 65536).wellFormed = false := by decide +kernel
theorem test_wf_commit_largest : (Instr.commitFrame [] [] 65535).wellFormed = true := by decide +kernel

/-! ### Decoding: one word of each row, from the tables of 30_encoding.md (R41 to R43, R54) -/

theorem test_decode_short : decode [0b00000010, 0b11111111] = .instr (.short 255) := by decide +kernel
theorem test_decode_long : decode [0b00000011, 0b00000001, 0b00000010] = .instr (.long 258) := by decide +kernel
theorem test_decode_reserved04 : decode [0b00000100] = .instr .reserved04 := by decide +kernel
theorem test_decode_invalid0001 : decode [0b00000001] = .instr (.invalid0001 1) := by decide +kernel
theorem test_decode_invalid05 : decode [0b00000101] = .instr .invalid05 := by decide +kernel
theorem test_decode_invalid0607 : decode [0b00000111] = .instr (.invalid0607 1) := by decide +kernel
theorem test_decode_invalid080F : decode [0b00001101] = .instr (.invalid080F 0b101) := by decide +kernel
theorem test_decode_invalid101F : decode [0b00011001] = .instr (.invalid101F 0b1001) := by decide +kernel
theorem test_decode_invalid203F : decode [0b00110001] = .instr (.invalid203F 0b10001) := by decide +kernel
theorem test_decode_invalid407F : decode [0b01100001] = .instr (.invalid407F 0b100001) := by decide +kernel
theorem test_decode_invalid80FF : decode [0b11000001] = .instr (.invalid80FF 0b1000001) := by decide +kernel
theorem test_decode_needs_header : decode [] = .needMore 1 ∧ decode [0x02] = .needMore 1 ∧ decode [0x03] = .needMore 2 ∧
    decode [0x03, 0x00] = .needMore 1 := by decide +kernel
theorem test_encode_long : encode (.long 0x0102) = some [0x03, 0x01, 0x02] := by decide +kernel
theorem test_encode_operation : encode .reset = none ∧ encode (.eatByte 0x02) = none := by decide +kernel

/-! ### Table words -/

theorem test_table_word_short : decodeTableWord 8 0x02 = some (.short 0) := by decide +kernel
theorem test_table_word_80 : decodeTableWord 8 0x80 = some (.invalid80FF 0) := by decide +kernel
theorem test_unlisted_byte_reads : State.reset.readByte 15 = .ok 0x00 ∧ State.reset.readByte 16 = .error (.noSuchByte 16) :=
  ⟨rfl, rfl⟩
theorem test_write_is_canonical : bufSet (bufSet [] 3 0x41) 3 0x00 = [] ∧ bufSet [(3, 0x41)] 1 0x02 = [(1, 0x02), (3, 0x41)] := by
  decide +kernel
theorem test_step_runs_table_word : triple (step (State.reset.withFetchWord 8 0x04)) = some (1, 3, 0, []) := by
  decide +kernel

/-! ### CRC16 (95_test_vectors.md V8, V14) -/

theorem test_crc_A : crc16 [0x41] = 0x58E5 := by decide +kernel
theorem test_crc_check_value : crc16 [0x31, 0x32, 0x33, 0x34, 0x35, 0x36, 0x37, 0x38, 0x39] = 0x31C3 := by decide +kernel

/-! ### DECODE_FRAME (V29, V39e) -/

theorem test_decodeFrame_waits_beyond_capacity :
    returned (exec (.decodeFrame 2) (inst 16 0 2 7 0 [0x02, 0x10])) = some (.outcome (.needMoreBytes 19)) := by
  decide +kernel
theorem test_decodeFrame_absolute_range :
    returned (exec (.decodeFrame 6) (inst 16 3 9 7 0 ([0xAA, 0xBB, 0xCC] ++ frameA))) =
      some (.outcome (.consumed 6 5 6)) := by decide +kernel

/-! ### EAT_BYTE and the selector classes (V46, V49, V51, program P3 byte 15, V33) -/

theorem test_eatByte_completes_frame :
    triple (exec (.eatByte 0x03) (inst 8 0 5 1 0 [0x02, 0x01, 0x41, 0x58, 0xE5])) = some (0, 0, 1, [[0x41]]) := by
  decide +kernel
theorem test_eatByte_compacts :
    memory (exec (.eatByte 0x58) (inst 8 5 8 3 0 [0xEE, 0xEE, 0xEE, 0xEE, 0xEE, 0x02, 0x01, 0x41])) =
      some ([0x02, 0x01, 0x41, 0x58, 0xEE, 0x02, 0x01, 0x41], 0, 4, 2) := by decide +kernel
theorem test_eatByte_discards :
    memory (exec (.eatByte 0x07) (inst 8 0 8 5 0 [0x02, 0x08, 0x01, 0x02, 0x03, 0x04, 0x05, 0x06])) =
      some ([0x07, 0x08, 0x01, 0x02, 0x03, 0x04, 0x05, 0x06], 0, 1, 4) := by decide +kernel
theorem test_eatByte_rejects_and_emits :
    triple (exec (.eatByte 0x0D)
      (inst 16 0 14 1 0 ([0x02, 0x0A] ++ frameA ++ [0x02, 0x04, 0x01, 0x02, 0x03, 0x04]))) =
      some (8, 15, 2, [[0x41]]) := by decide +kernel
theorem test_short_accepts_in_loop :
    triple (exec (.short 1) (inst 16 0 6 1 6 frameA)) = some (6, 6, 1, [[0x41]]) := by decide +kernel
theorem test_long_255_judged : scanBytes 300 0 longAA = .consumed 261 3 258 := by decide +kernel
theorem test_long_exceeds_capacity : triple (exec (.long 255) (inst 16 0 3 1 3 [0x03, 0x00, 0xFF])) = some (1, 3, 1, []) := by
  decide +kernel
theorem test_invalid_last_byte_empties : triple (exec (.invalid80FF 127) (inst 16 4 5 1 1 [0, 0, 0, 0, 0xFF])) =
    some (0, 0, 1, []) := by decide +kernel

/-! ### The encoder (V62, V67, V70, V74, V77, V72) -/

theorem test_sizeHint_zero : returned (exec (.sizeHint 0) State.reset) = some (.size 5) := by decide +kernel
theorem test_sizeHint_513 : returned (exec (.sizeHint 513) State.reset) = some (.sizeError .tooBig) := by decide +kernel
theorem test_commit_Hi :
    returned (exec (.commitFrame [0x48, 0x69, 0x21] (List.replicate 10 0xEE) 16) State.reset) =
      some (.committed [0x02, 0x03, 0x48, 0x69, 0x21, 0x31, 0xFD, 0x03, 0xEE, 0xEE]) := by decide +kernel
theorem test_commit_length_before_space :
    returned (exec (.commitFrame (List.replicate 256 0x55) [] 255) State.reset) =
      some (.commitError .invalidLength []) := by decide +kernel

/-! ### RESET (V83) -/

theorem test_reset : triple (exec .reset (inst 16 3 9 4 0 (List.replicate 9 0x55))) = some (0, 0, 0, []) := by decide +kernel

/-! ### Witnesses: a state and operands that meet all hypotheses of each statement, at boundary values -/

/-- The SHORT frame of payload "A" written out is the model's `shortFrame`. -/
theorem shortFrame_A : shortFrame [0x41] = frameA := by decide +kernel

theorem longFrame_AA : longFrame (List.replicate 255 0xAA) = longAA := by decide +kernel

theorem witness_EncodedHeaderDecodesToItsInstruction : ∃ i hb, encode i = some hb :=
  ⟨.long 0xFFFF, [0x03, 0xFF, 0xFF], by decide +kernel⟩

theorem witness_DecodedBytesBeginWithTheEncoding : ∃ bs i, decode bs = .instr i :=
  ⟨[0x80, 0x02], .invalid80FF 0, by decide +kernel⟩

theorem witness_EverySelectorHasExactlyOneRow : ∃ (sel : Byte) (rest : Bytes) (i : Instr), decode (sel :: rest) = .instr i :=
  ⟨0x03, [0x00, 0xFF], .long 255, by decide +kernel⟩

theorem witness_OtherSelectorsAreRejectedOnSight :
    (∃ sel : Byte, sel ≠ 0x02 ∧ sel ≠ 0x03) ∧
    ∃ s : State, s.Inv ∧ s.scanLeft ≠ 0 ∧ 1 ≤ s.pending ∧ s.byte s.readIdx ≠ 0x02 ∧ s.byte s.readIdx ≠ 0x03 :=
  ⟨⟨0x04, by decide +kernel⟩, inst 16 0 1 1 1 [0x04], by decide +kernel⟩

theorem witness_SingleBitErrorInPayloadOrCrcIsRejected :
    (∃ (n : Nat) (p : Bytes) (j k : Nat), p.length ≤ n ∧ k < 8 ∧ 1 ≤ p.length ∧ p.length ≤ 255 ∧ 2 ≤ j ∧ j < p.length + 4) ∧
    ∃ (n : Nat) (p : Bytes) (j k : Nat), p.length ≤ n ∧ k < 8 ∧ 255 ≤ p.length ∧ p.length ≤ 65535 ∧ 3 ≤ j ∧ j < p.length + 5 :=
  ⟨⟨1, [0x41], 4, 7, by decide +kernel⟩, 255, List.replicate 255 0xAA, 3, 0, by decide +kernel⟩

theorem witness_DecodeFrameFollowsItsPseudocode : ∃ (s : State) (d : Nat), s.Inv ∧ d ≤ s.pending :=
  ⟨inst 16 0 6 1 0 frameA, 6, by decide +kernel⟩

theorem witness_DecodeFrameWritesOnlyTheHint :
    (∃ s t, exec (.decodeFrame 6) s = .next t) ∧ (∃ s t, exec (.decodeFrame 0) s = .next t) ∧
    ∃ s t, exec (.decodeFrame 1) s = .next t :=
  ⟨⟨inst 16 0 6 1 0 frameA, exists_next (by decide +kernel)⟩, ⟨inst 16 0 6 1 0 frameA, exists_next (by decide +kernel)⟩,
   inst 16 2 6 1 0 frameA, exists_next (by decide +kernel)⟩

theorem witness_VerdictDoesNotChangeWithMoreBytes : ∃ (n r : Nat) (bs : Bytes), ∀ k, scanBytes n r bs ≠ .needMoreBytes k :=
  ⟨16, 0, frameA, fun k h => by
    have e : scanBytes 16 0 frameA = .consumed 6 2 3 := by decide +kernel
    rw [e] at h
    cases h⟩

theorem witness_OutcomeDependsOnTheInspectedBytesAlone :
    ∃ (s₁ s₂ : State) (d : Nat), s₁.Inv ∧ s₂.Inv ∧ s₁.cap = s₂.cap ∧ d ≤ s₁.pending ∧ d ≤ s₂.pending ∧
      ∀ k, k < d → s₁.byte (s₁.readIdx + k) = s₂.byte (s₂.readIdx + k) :=
  ⟨inst 16 0 6 1 0 frameA, inst 16 3 9 7 0 ([0xAA, 0xBB, 0xCC] ++ frameA), 6, by decide +kernel⟩

theorem witness_ShortFrameIsAccepted :
    ∃ (s : State) (p rest : Bytes), s.Inv ∧ 1 ≤ p.length ∧ p.length ≤ 255 ∧ s.pendingBytes = shortFrame p ++ rest :=
  ⟨inst 16 0 7 1 7 (frameA ++ [0x02]), [0x41], [0x02], by decide +kernel⟩

theorem witness_LongFrameIsAccepted :
    ∃ (s : State) (p rest : Bytes), s.Inv ∧ 255 ≤ p.length ∧ p.length ≤ 65535 ∧ s.pendingBytes = longFrame p ++ rest :=
  ⟨scanning 261 longAA, List.replicate 255 0xAA, [], scanning_inv _ _ (by decide +kernel) (by decide +kernel) (by decide +kernel),
   by decide +kernel, by decide +kernel, by rw [scanning_pendingBytes, longFrame_AA, List.append_nil]⟩

theorem witness_IllegalLengthIsRejected :
    (∃ s : State, s.Inv ∧ 2 ≤ s.pending) ∧ (∃ (s : State) (len : Byte), s.Inv ∧ 2 ≤ s.pending ∧ s.cap < len.toNat) ∧
    (∃ (s : State) (len : Half), s.Inv ∧ 3 ≤ s.pending ∧ len.toNat < 255) ∧
    ∃ (s : State) (len : Half), s.Inv ∧ 3 ≤ s.pending ∧ s.cap < len.toNat :=
  ⟨⟨inst 16 0 2 1 2 [0x02, 0x00], by decide +kernel⟩, ⟨inst 16 0 2 1 2 [0x02, 0x11], 17, by decide +kernel⟩,
   ⟨inst 16 0 3 1 3 [0x03, 0x00, 0xFE], 254, by decide +kernel⟩, inst 16 0 3 1 3 [0x03, 0x00, 0xFF], 255, by decide +kernel⟩

theorem witness_DamagedFrameIsRejected :
    (∃ (s : State) (len : Byte), s.Inv ∧ 1 ≤ len.toNat ∧ len.toNat ≤ s.cap ∧ len.toNat + 5 ≤ s.pending ∧
      s.byte (s.readIdx + len.toNat + 4) ≠ 0x03) ∧
    (∃ (s : State) (len : Byte), s.Inv ∧ 1 ≤ len.toNat ∧ len.toNat ≤ s.cap ∧ len.toNat + 5 ≤ s.pending ∧
      crc16 ((List.range len.toNat).map fun k => s.byte (s.readIdx + 2 + k)) ≠
        s.byte (s.readIdx + 2 + len.toNat) ++ s.byte (s.readIdx + 3 + len.toNat)) ∧
    ∃ (s : State) (len : Half), s.Inv ∧ 255 ≤ len.toNat ∧ len.toNat ≤ s.cap ∧ len.toNat + 6 ≤ s.pending ∧
      (s.byte (s.readIdx + len.toNat + 5) ≠ 0x03 ∨
        crc16 ((List.range len.toNat).map fun k => s.byte (s.readIdx + 3 + k)) ≠
          s.byte (s.readIdx + 3 + len.toNat) ++ s.byte (s.readIdx + 4 + len.toNat)) :=
  ⟨⟨inst 16 0 6 1 6 [0x02, 0x01, 0x41, 0x58, 0xE5, 0x04], 1, by decide +kernel⟩,
   ⟨inst 16 0 6 1 6 [0x02, 0x01, 0x41, 0x58, 0xE4, 0x03], 1, by decide +kernel⟩,
   scanning 261 (longAA.set 260 0x04), 255,
   scanning_inv _ _ (by decide +kernel) (by decide +kernel) (by decide +kernel), by decide +kernel, by decide +kernel,
   by decide +kernel, .inl (by decide +kernel)⟩

theorem witness_IncompleteFrameWaitsForTheMissingBytes :
    (∃ s : State, s.Inv ∧ s.pending = 1) ∧ (∃ s : State, s.Inv ∧ s.pending = 2) ∧
    (∃ (s : State) (len : Byte), s.Inv ∧ 1 ≤ len.toNat ∧ len.toNat ≤ s.cap ∧ 2 ≤ s.pending ∧ s.pending < len.toNat + 5) ∧
    ∃ (s : State) (len : Half), s.Inv ∧ 255 ≤ len.toNat ∧ len.toNat ≤ s.cap ∧ 3 ≤ s.pending ∧ s.pending < len.toNat + 6 :=
  ⟨⟨inst 16 0 1 1 1 [0x02], by decide +kernel⟩, ⟨inst 16 0 2 1 2 [0x03, 0x00], by decide +kernel⟩,
   ⟨inst 16 0 2 1 2 [0x02, 0x10], 16, by decide +kernel⟩, inst 255 0 3 1 3 [0x03, 0x00, 0xFF], 255, by decide +kernel⟩

theorem witness_InvalidSelectorGivesUpOneByte : ∃ s : State, s.Inv ∧ 1 ≤ s.pending :=
  ⟨inst 16 0 1 1 1 [0xFF], by decide +kernel⟩

/-- A state at rest in the middle of a frame (95_test_vectors.md V46). -/
def midFrame : State := inst 8 0 5 1 0 [0x02, 0x01, 0x41, 0x58, 0xE5]

/-- A state at rest with the buffer full (V51), and the one with the last index written and room in front (V49). -/
def fullBuffer : State := inst 8 0 8 5 0 [0x02, 0x08, 0x01, 0x02, 0x03, 0x04, 0x05, 0x06]

def atTheEnd : State := inst 8 5 8 3 0 [0xEE, 0xEE, 0xEE, 0xEE, 0xEE, 0x02, 0x01, 0x41]

theorem midFrame_atRest : midFrame.AtRest := by decide +kernel
theorem fullBuffer_atRest : fullBuffer.AtRest := by decide +kernel
theorem atTheEnd_atRest : atTheEnd.AtRest := by decide +kernel

theorem witness_DecoderOperationsNeverFail : ∃ (s : State) (d : Nat), s.AtRest ∧ d ≤ s.pending :=
  ⟨fullBuffer, 8, fullBuffer_atRest, by decide +kernel⟩

theorem witness_EatByteRefinesTheQueueDecoder : ∃ s : State, s.AtRest := ⟨fullBuffer, fullBuffer_atRest⟩

theorem witness_EatByteIsPreparationThenSteps :
    ∃ (s : State) (b : Byte), s.AtRest ∧ s.port = [] ∧ s.bytesLeft ≤ 1 ∧ ∃ t, s.prepare b = .ok t :=
  ⟨midFrame, 0x03, midFrame_atRest, rfl, by decide +kernel, _, rfl⟩

theorem witness_HintSkipAppendsWithoutScanning :
    (∃ s : State, s.AtRest ∧ 1 < s.bytesLeft ∧ s.writeIdx ≠ s.cap) ∧
    (∃ s : State, s.AtRest ∧ 1 < s.bytesLeft ∧ s.writeIdx = s.cap ∧ s.pending < s.cap) ∧
    ∃ s : State, s.AtRest ∧ 1 < s.bytesLeft ∧ s.pending = s.cap :=
  ⟨⟨inst 8 0 7 2 0 [0x02, 0x08, 0x41, 0x58, 0x01, 0x02, 0x03], by decide +kernel⟩, ⟨atTheEnd, atTheEnd_atRest, by decide +kernel⟩,
   fullBuffer, fullBuffer_atRest, by decide +kernel⟩

theorem witness_OverflowDiscardRestartsWithTheByte :
    (∃ s : State, s.AtRest ∧ s.pending = s.cap ∧ 1 < s.bytesLeft) ∧
    ∃ s : State, s.AtRest ∧ s.pending = s.cap ∧ s.bytesLeft ≤ 1 :=
  ⟨⟨fullBuffer, fullBuffer_atRest, by decide +kernel⟩, inst 1 0 1 1 0 [0x02], by decide +kernel⟩

theorem witness_CompactionMovesThePendingBytes :
    (∃ s : State, s.AtRest ∧ s.writeIdx = s.cap ∧ s.pending < s.cap) ∧ (∃ s : State, s.AtRest ∧ s.writeIdx + 1 = s.cap) ∧
    (∃ s : State, s.AtRest ∧ s.writeIdx ≠ s.cap ∧ 0 < s.readIdx) ∧ ∃ s : State, s.AtRest ∧ s.pending = s.cap :=
  ⟨⟨atTheEnd, atTheEnd_atRest, by decide +kernel⟩, ⟨State.resetOf 1, by decide +kernel⟩,
   ⟨inst 8 5 7 3 0 [0xEE, 0xEE, 0xEE, 0xEE, 0xEE, 0x02, 0x01], by decide +kernel⟩, fullBuffer, fullBuffer_atRest,
   by decide +kernel⟩

theorem witness_CompactionIsTheAscendingCopy :
    (∃ s : State, s.AtRest ∧ s.writeIdx = s.cap ∧ 0 < s.pending) ∧
    ∃ s : State, s.AtRest ∧ s.writeIdx = s.cap ∧ s.cap < 2 * s.pending :=
  ⟨⟨atTheEnd, atTheEnd_atRest, by decide +kernel⟩, inst 4 1 4 2 0 [0xEE, 0x02, 0x01, 0x41], by decide +kernel⟩

theorem witness_AppendIsInsideTheBuffer : ∃ s : State, s.AtRest := ⟨atTheEnd, atTheEnd_atRest⟩

theorem witness_EatByteStoresOnlyTheMovedBytesAndTheNewOne :
    ∃ (s c t : State) (b : Byte), s.overflowDiscard.compact = .ok c ∧ exec (.eatByte b) s = .next t ∧
      s.overflowDiscard.compactionDue = true := by
  obtain ⟨t, ht⟩ := exists_next (x := exec (.eatByte 0x58) atTheEnd) (by decide +kernel)
  exact ⟨atTheEnd, _, t, 0x58, rfl, ht, by decide +kernel⟩

theorem witness_EmittedPayloadsWereWholeFrames :
    ∃ (s t : State) (b : Byte), s.AtRest ∧ exec (.eatByte b) s = .next t ∧ t.sink = [[0x41]] := by
  have h : (next? (exec (.eatByte 0x03) midFrame)).map State.sink = some [[0x41]] := by decide +kernel
  obtain ⟨t, ht⟩ := exists_next (x := exec (.eatByte 0x03) midFrame) (by decide +kernel)
  rw [ht] at h
  exact ⟨midFrame, t, 0x03, midFrame_atRest, ht, by simpa [next?] using h⟩

/-- Program P1's stream is accepted from reset (95_test_vectors.md). -/
theorem feed_frameA : (next? (feed frameA (State.resetOf 16))).map State.sink = some [[0x41]] := by decide +kernel

theorem witness_OnlyFramesThatFitAreReceived :
    (∃ (n : Nat) (bs : Bytes) (t : State), capacityLegal n = true ∧ feed bs (State.resetOf n) = .next t ∧ t.sink = [[0x41]]) ∧
    ∃ (n : Nat) (bs : Bytes) (t : State), capacityLegal n = true ∧ feed bs (State.resetOf n) = .next t ∧ n < 6 := by
  have h := feed_frameA
  obtain ⟨t, ht⟩ := exists_next (x := feed frameA (State.resetOf 16)) (by decide +kernel)
  obtain ⟨u, hu⟩ := exists_next (x := feed frameA (State.resetOf 5)) (by decide +kernel)
  rw [ht] at h
  exact ⟨⟨16, frameA, t, by decide +kernel, ht, by simpa [next?] using h⟩, 5, frameA, u, by decide +kernel, hu, by decide +kernel⟩

theorem witness_CommittedFrameIsReceived :
    ∃ (s : State) (p f : Bytes), s.AtRest ∧ s.pending = 0 ∧ s.bytesLeft ≤ 1 ∧ commitFrameBytes s.cap p = some f ∧
      f.length ≤ s.cap :=
  ⟨State.resetOf 6, [0x41], frameA, by decide +kernel⟩

theorem witness_BackToBackFramesAreReceivedInOrder :
    ∃ (n : Nat) (ps : List Bytes), capacityLegal n = true ∧ ∀ p ∈ ps, 1 ≤ p.length ∧ (encFrame p).length ≤ n :=
  ⟨8, [[0x48, 0x69, 0x21], [0x41]], by decide +kernel⟩

theorem witness_JunkBeforeAFrameIsSkipped :
    ∃ (n : Nat) (junk p : Bytes), capacityLegal n = true ∧ (∀ b ∈ junk, b ≠ 0x02 ∧ b ≠ 0x03) ∧ 1 ≤ p.length ∧
      (encFrame p).length ≤ n :=
  ⟨6, [0x04, 0x00, 0xFF], [0x41], by decide +kernel⟩

theorem witness_FrameJustTooLongForTheBufferIsLost :
    ∃ (n : Nat) (p : Bytes), capacityLegal n = true ∧ 1 ≤ p.length ∧ p.length ≤ n ∧ n < (encFrame p).length ∧
      (encFrame p).length ≤ n + 5 :=
  ⟨7, [0x48, 0x69, 0x21], by decide +kernel⟩

theorem witness_EveryFrameLongerThanTheBufferEmitsNothing :
    ∃ (n : Nat) (p f : Bytes) (t : State), capacityLegal n = true ∧ commitFrameBytes n p = some f ∧ n < f.length ∧
      feed f (State.resetOf n) = .next t := by
  obtain ⟨t, ht⟩ := exists_next (x := feed frameA (State.resetOf 5)) (by decide +kernel)
  exact ⟨5, [0x41], frameA, t, by decide +kernel, by decide +kernel, by decide +kernel, ht⟩

theorem witness_HintSkipCannotBeSeen : capacityLegal 1 = true ∧ capacityLegal 65535 = true := by decide +kernel

theorem witness_HintStaysExactWithoutOverflow :
    ∃ (s t : State) (b : Byte), s.AtRest ∧ s.pending < s.cap ∧
      scanBytes s.cap s.readIdx s.pendingBytes = .needMoreBytes s.hint ∧ exec (.eatByte b) s = .next t := by
  obtain ⟨t, ht⟩ := exists_next (x := exec (.eatByte 0x58) atTheEnd) (by decide +kernel)
  exact ⟨atTheEnd, t, 0x58, atTheEnd_atRest, by decide +kernel, by decide +kernel, ht⟩

theorem witness_StaleBytesNeverReachTheOutput :
    ∃ s₁ s₂ : State, s₁.AtRest ∧ s₂.AtRest ∧ s₁.cap = s₂.cap ∧ s₁.bytesLeft = s₂.bytesLeft ∧
      s₁.pendingBytes = s₂.pendingBytes ∧ s₁ ≠ s₂ :=
  ⟨atTheEnd, inst 8 0 3 3 0 [0x02, 0x01, 0x41], by decide +kernel⟩

theorem witness_FirstByteAfterReset : capacityLegal 1 = true ∧ capacityLegal 65535 = true := by decide +kernel

theorem witness_ResetStateHasTheInvariant :
    ∃ (n : Nat) (m : List Host.Cell), capacityLegal n = true ∧ Memory.wf m = true ∧ (∀ c ∈ m, c.1 < n) ∧ m ≠ [] :=
  ⟨1, [(0, 0xA5)], by decide +kernel⟩

theorem witness_ResetForgetsTheStream : ∃ s r : State, s.Inv ∧ exec .reset s = .next r := ⟨fullBuffer, _, by decide +kernel, rfl⟩

theorem witness_CommitFrameWritesTheFrame :
    (∃ (p dest : Bytes) (n : Nat), capacityLegal n = true ∧ 1 ≤ p.length ∧ p.length ≤ 255 ∧ p.length + 5 ≤ dest.length) ∧
    ∃ (p dest : Bytes) (n : Nat), capacityLegal n = true ∧ 256 ≤ p.length ∧ p.length ≤ n ∧ p.length + 6 ≤ dest.length :=
  ⟨⟨[0x41], List.replicate 6 0xEE, 1, by decide +kernel⟩, List.replicate 256 0x55, List.replicate 262 0xEE, 256, by decide +kernel⟩

theorem witness_CommitFrameErrorsLeaveTheDestination :
    (∃ (p : Bytes) (n : Nat), capacityLegal n = true ∧ 256 ≤ p.length ∧ n < p.length) ∧
    (∃ (p dest : Bytes) (n : Nat), capacityLegal n = true ∧ 1 ≤ p.length ∧ p.length ≤ 255 ∧ dest.length < p.length + 5) ∧
    ∃ (p dest : Bytes) (n : Nat), capacityLegal n = true ∧ 256 ≤ p.length ∧ p.length ≤ n ∧ dest.length < p.length + 6 :=
  ⟨⟨List.replicate 256 0x55, 255, by decide +kernel⟩, ⟨[0x41], List.replicate 5 0xEE, 16, by decide +kernel⟩,
   List.replicate 256 0x55, List.replicate 261 0xEE, 256, by decide +kernel⟩

theorem witness_SizeHintIsTheLeastDestination :
    ∃ (s : State) (p : Bytes) (n size : Nat), capacityLegal n = true ∧ 1 ≤ p.length ∧ (p.length ≤ 255 ∨ p.length ≤ n) ∧
      exec (.sizeHint p.length) s = .next { s with result := some (.size size) } :=
  ⟨State.reset, [0x48, 0x69, 0x21], 16, 8, by decide +kernel, by decide +kernel, .inl (by decide +kernel), rfl⟩

theorem witness_OnlyEatByteWritesTheBuffer :
    ∃ (i : Instr) (s t : State), exec i s = .next t ∧ ∀ b, i ≠ .eatByte b :=
  ⟨.reset, fullBuffer, _, rfl, fun b => by simp⟩

theorem witness_PureOperationsLeaveTheDecoderAlone : ∃ (s t : State) (f : Nat), exec (.sizeHint f) s = .next t :=
  ⟨fullBuffer, _, 512, rfl⟩

theorem witness_SelectorsLeaveTheRestAlone : ∃ (i : Instr) (s t : State), i.isOperation = false ∧ exec i s = .next t := by
  obtain ⟨t, ht⟩ := exists_next (x := exec (.short 1) (inst 16 0 6 1 6 frameA)) (by decide +kernel)
  exact ⟨.short 1, _, t, rfl, ht⟩

theorem witness_step_next : ∃ s t : State, s.Inv ∧ step s = .next t := by
  obtain ⟨t, ht⟩ := exists_next (x := step (inst 16 0 6 1 6 frameA)) (by decide +kernel)
  exact ⟨_, t, by decide +kernel, ht⟩

theorem witness_HintNeverReturnsToZero :
    ∃ (i : Instr) (s t : State), exec i s = .next t ∧ i ≠ .reset ∧ 0 < s.bytesLeft := by
  obtain ⟨t, ht⟩ := exists_next (x := exec (.eatByte 0x03) midFrame) (by decide +kernel)
  exact ⟨.eatByte 0x03, midFrame, t, ht, by simp, by decide +kernel⟩

theorem witness_StepRunsTheFetchedInstruction :
    (∃ (s : State) (i : Instr), s.Inv ∧ s.scanLeft ≠ 0 ∧ s.fetch = .ok (.instr i)) ∧
    ∃ (s : State) (k : Nat), s.Inv ∧ s.scanLeft ≠ 0 ∧ s.fetch = .ok (.needMore k) :=
  ⟨⟨inst 16 0 6 1 6 frameA, .short 1, by decide +kernel, by decide +kernel, rfl⟩,
   inst 16 0 2 1 2 [0x03, 0x00], 1, by decide +kernel, by decide +kernel, rfl⟩

theorem witness_StepTakesTheOldestOperation :
    (∃ (s : State) (op : Op) (ops : List Op), s.scanLeft = 0 ∧ s.port = op :: ops) ∧ ∃ s : State, s.scanLeft = 0 ∧ s.port = [] :=
  ⟨⟨State.reset.setPort [.eatByte 0x02, .reset], _, _, rfl, rfl⟩, State.reset, rfl, rfl⟩

theorem witness_PlacedWordRunsNext :
    ∃ (s : State) (nbits w : Nat) (i : Instr), s.Inv ∧ s.readIdx + 3 ≤ s.cap ∧ decodeTableWord nbits w = some i :=
  ⟨State.reset, 8, 0x03, .long 0, by decide +kernel⟩

theorem witness_CallsOutsideTheDomainAreRefused :
    (∃ s : State, s.scanLeft ≠ 0) ∧ (∃ (s : State) (d : Nat), s.Inv ∧ s.pending < d) ∧ (∃ n, capacityLegal n = false) ∧
    (∃ s : State, s.scanLeft = 0 ∧ capacityLegal s.cap = true ∧ (s.writeIdx < s.readIdx ∨ s.cap < s.writeIdx)) ∧
    (∃ s : State, s.scanLeft = 0 ∧ capacityLegal s.cap = false) ∧
    (∃ (s : State) (i : Instr), i.isOperation = false ∧ capacityLegal s.cap = false) ∧
    ∃ (s : State) (i : Instr), i.isOperation = false ∧ capacityLegal s.cap = true ∧
      (s.writeIdx < s.readIdx ∨ s.cap < s.writeIdx) :=
  ⟨⟨inst 16 0 1 1 1 [0x02], by decide +kernel⟩, ⟨midFrame, 6, midFrame_atRest.1, by decide +kernel⟩, ⟨0, by decide +kernel⟩,
   ⟨inst 8 0 9 1 0 [], by decide +kernel⟩, ⟨State.resetOf 65536, by decide +kernel⟩,
   ⟨State.resetOf 0, .short 1, by decide +kernel⟩, inst 8 2 1 1 1 [], .reserved04, by decide +kernel⟩

end Sys2Proof.Tests
end

/-! ### Rejected selectors: from the decoder to the step (30_encoding.md R45, 42_ingestion.md R87) -/

namespace Sys2Proof.Machine

/-! #### Reading and stepping inside the invariant -/

/-- The invariant includes the model's domain. -/
theorem domainRefusal_of_inv {s : State} (h : s.Inv) : s.domainRefusal = none := by
  obtain ⟨-, -, hcap, hrw, hwc, -⟩ := h
  exact (domainRefusal_eq_none s).2 ⟨hcap, hrw, hwc⟩

/-- An access that answered goes on with its value. -/
@[simp] theorem orFault_ok {α : Type} (a : α) (k : α → Result) : orFault (.ok a) k = k a := rfl

/-- A MemRead of at least one byte begins with the byte at its first index. -/
theorem memRead_eq_byte_cons {s : State} {i n : Nat} (hn : 1 ≤ n) (hcap : i + n ≤ s.cap) :
    ∃ rest, s.memRead i n = .ok (s.byte i :: rest) := by
  obtain ⟨bs, hbs⟩ := memRead_total s i n hcap
  obtain ⟨b, hhead, hread⟩ := (memRead_spec s i n bs hbs).2 0 hn
  obtain ⟨-, hb⟩ := (readByte_eq_ok s i b).1 hread
  cases bs with
  | nil => cases hhead
  | cons c rest =>
    obtain rfl : c = b := by simpa using hhead
    exact ⟨rest, by rw [hbs, ← hb, State.byte]⟩

/-- A MemRead of pending bytes, at least one of them, begins with the candidate's selector. -/
theorem memRead_pending {s : State} {n : Nat} (h : s.Inv) (hn : 1 ≤ n) (hle : n ≤ s.pending) :
    ∃ rest, s.memRead s.readIdx n = .ok (s.byte s.readIdx :: rest) := by
  obtain ⟨-, -, -, hrw, hwc, -⟩ := h
  unfold State.pending at hle
  exact memRead_eq_byte_cons hn (by omega)

/-- Inside a scan loop the step is `exec` of the fetched instruction. -/
theorem step_eq_exec_of_fetch {s : State} {i : Instr} (h : s.Inv) (hs : s.scanLeft ≠ 0)
    (hf : s.fetch = .ok (.instr i)) : step s = exec i s := by
  unfold step stepWith
  rw [if_pos hs, scanOnceWith, guarded_of_none (domainRefusal_of_inv h), hf, orFault_ok]

/-- An iteration that leaves `read_idx` at `r` and does not wait ends where `loopAt` says. -/
theorem nextIteration_setCursors (s : State) (r : Nat) :
    (s.setCursors r s.writeIdx).nextIteration = s.loopAt r := by
  unfold State.loopAt
  rcases nextIteration_cases (s.setCursors r s.writeIdx) with ⟨hlast, e⟩ | ⟨hmore, e⟩
  · rw [State.setCursors_scanLeft] at hlast
    rw [e, if_neg (Nat.not_lt.2 hlast)]
    rcases finishScan_cases (s.setCursors r s.writeIdx) with ⟨hempty, e'⟩ | ⟨hleft, e'⟩
    · rw [State.setCursors_readIdx, State.setCursors_writeIdx] at hempty
      rw [e', if_pos hempty]
      rfl
    · rw [State.setCursors_readIdx, State.setCursors_writeIdx] at hleft
      rw [e', if_neg hleft]
      rfl
  · rw [State.setCursors_scanLeft] at hmore
    rw [e, if_pos hmore]
    rfl

/-- InvalidData is answered by passing over one byte and going on with the loop (42_ingestion.md R87). -/
theorem respond_invalidData (c : InvalidCause) (s : State) :
    respond (.invalidData c) s = .next (s.loopAt (s.readIdx + 1)) :=
  congrArg Host.Outcome.next (nextIteration_setCursors s (s.readIdx + 1))

/-! #### A selector other than SHORT's and LONG's -/

/-- Such a selector decodes to its row, whatever follows it. -/
theorem decode_of_badSelector {sel : Byte} (rest : Bytes) (h2 : sel ≠ 0x02) (h3 : sel ≠ 0x03) :
    decode (sel :: rest) = .instr (decodeInvalid sel) :=
  (if_neg h2).trans (if_neg h3)

/-- A bad selector is judged without a look at the bytes behind it. -/
theorem judgeBadSelector_cons (sel : Byte) (rest : Bytes) :
    judgeBadSelector (sel :: rest) = .invalidData .badSelector :=
  withHeader_of_le _ (Nat.le_refl 1) (by simp)

/-- The scanner rejects such a selector, whatever follows it. -/
theorem scanBytes_of_badSelector (n r : Nat) {sel : Byte} (rest : Bytes) (h2 : sel ≠ 0x02) (h3 : sel ≠ 0x03) :
    scanBytes n r (sel :: rest) = .invalidData .badSelector := by
  rw [decodeInvalid_judged n r sel _ (decode_of_badSelector rest h2 h3), judgeBadSelector_cons]

/-- All nine rows `decodeInvalid` reads have one meaning: a scan that judges the selector alone. -/
theorem exec_decodeInvalid (sel : Byte) (s : State) : exec (decodeInvalid sel) s = scanStep judgeBadSelector s := by
  unfold decodeInvalid
  repeat' split
  all_goals rfl

/-- That scan gives up exactly the byte at `read_idx`. -/
theorem scanStep_judgeBadSelector {s : State} (h : s.Inv) (hp : 1 ≤ s.pending) :
    scanStep judgeBadSelector s = .next (s.loopAt (s.readIdx + 1)) := by
  obtain ⟨rest, hread⟩ := memRead_pending h hp (Nat.le_refl _)
  rw [scanStep, guarded_of_none (domainRefusal_of_inv h), hread, orFault_ok, judgeBadSelector_cons,
    respond_invalidData]

/-- A candidate with such a selector is fetched as its row. -/
theorem fetch_of_badSelector {s : State} (h : s.Inv) (hp : 1 ≤ s.pending) (h2 : s.byte s.readIdx ≠ 0x02)
    (h3 : s.byte s.readIdx ≠ 0x03) : s.fetch = .ok (.instr (decodeInvalid (s.byte s.readIdx))) := by
  have hn : 1 ≤ min maxHeader s.pending := Nat.le_min.2 ⟨by decide, hp⟩
  obtain ⟨rest, hread⟩ := memRead_pending h hn (Nat.min_le_right _ _)
  exact (fetch_eq_ok s _).2 ⟨_, hread, decode_of_badSelector rest h2 h3⟩

/-- Settles O5: the scanner's half is `scanBytes_of_badSelector`; in the loop the selector is fetched as one of the nine
rejected rows, whose common meaning gives up one byte. -/
theorem otherSelectorsAreRejectedOnSight : Obligations.OtherSelectorsAreRejectedOnSight := by
  refine ⟨fun n r sel rest h2 h3 => scanBytes_of_badSelector n r rest h2 h3, fun s h hs hp h2 h3 => ?_⟩
  calc step s = exec (decodeInvalid (s.byte s.readIdx)) s := step_eq_exec_of_fetch h hs (fetch_of_badSelector h hp h2 h3)
    _ = scanStep judgeBadSelector s := exec_decodeInvalid _ s
    _ = .next (s.loopAt (s.readIdx + 1)) := scanStep_judgeBadSelector h hp

end Sys2Proof.Machine

/-! ### CRC16 on leading zero bytes (40_crc.md R61, R63) -/

namespace Sys2Proof.Machine

/-- A zero byte leaves the initial value as it is: nothing is xored in, and no shift carries a 1 out of bit 15. -/
theorem crcByte_zero_zero : crcByte 0 0x00 = 0 := by decide

/-- Any number of zero bytes leaves it as it is. -/
theorem crcFrom_zero_replicate (k : Nat) : crcFrom 0 (List.replicate k 0x00) = 0 := by
  induction k with
  | zero => rfl
  | succ k ih => rw [List.replicate_succ, crcFrom_cons, crcByte_zero_zero, ih]

/-- The bytes after leading zero bytes are taken in from the initial value. -/
theorem crc16_replicate_zero_append (k : Nat) (s : Bytes) : crc16 (List.replicate k 0x00 ++ s) = crc16 s := by
  rw [crc16_eq_crcFrom, crcFrom_append, crcFrom_zero_replicate, ← crc16_eq_crcFrom]

theorem crc16_replicate_zero (k : Nat) : crc16 (List.replicate k 0x00) = 0x0000 :=
  (crc16_eq_crcFrom _).trans (crcFrom_zero_replicate k)

/-- The byte's one bit leaves bit 15 at the eighth shift, so the polynomial itself remains. -/
theorem crc16_one : crc16 [0x01] = 0x1021 := by decide

/-- Settles O6: the two laws come from the accumulator staying at 0 over zero bytes, the value of `00 01` is an instance
of the first, and the other listed values are evaluated. -/
theorem crcOfTheCornerCases : Obligations.CrcOfTheCornerCases := by
  have zeroOne : crc16 [0x00, 0x01] = 0x1021 := (crc16_replicate_zero_append 1 [0x01]).trans crc16_one
  exact ⟨crc16_replicate_zero_append, crc16_replicate_zero, crc16_one, zeroOne, by decide, by decide, by decide⟩

end Sys2Proof.Machine

/-! ### DECODE_FRAME (41_frame_scanner.md R65, R77) -/

namespace Sys2Proof.Machine

/-- Settles O13: the outcome alone decides what is noted, and a NeedMoreBytes outcome asks for at least one byte. -/
theorem decodeFrameWritesOnlyTheHint : Obligations.DecodeFrameWritesOnlyTheHint := by
  intro s t d h
  obtain ⟨-, -, bs, -, rfl⟩ := execDecodeFrame_eq_next h
  cases ho : scanBytes s.cap s.readIdx bs with
  | needMoreBytes k => exact ⟨rfl, .inl ⟨k, (scanBytes_eq_needMore ho).1, rfl, rfl⟩⟩
  | invalidData c => exact ⟨rfl, .inr (.inl ⟨c, rfl, rfl⟩)⟩
  | consumed count lo hi => exact ⟨rfl, .inr (.inr ⟨count, lo, hi, rfl, rfl⟩)⟩

/-! #### The bytes of an index range -/

/-- `buf[r], buf[r+1], ..., buf[r+d-1]`, the string MemRead answers (00_scope.md R7), of a buffer given by index. -/
def window (buf : Nat → Byte) (r d : Nat) : Bytes := (List.range d).map fun k => buf (r + k)

@[simp] theorem length_window (buf : Nat → Byte) (r d : Nat) : (window buf r d).length = d := by simp [window]

theorem getElem?_window (buf : Nat → Byte) {r d i : Nat} (h : i < d) : (window buf r d)[i]? = some (buf (r + i)) := by
  simp [window, h]

/-- A range of at least one byte, taken apart at its first byte. -/
theorem window_succ (buf : Nat → Byte) (r d : Nat) : window buf r (d + 1) = buf r :: window buf (r + 1) d := by
  simp [window, List.range_succ_eq_map, Nat.add_left_comm, Nat.add_comm]

/-- Offsets in a range are indices in the buffer. -/
theorem byteAt_window (buf : Nat → Byte) {r d i : Nat} (h : i < d) : byteAt (window buf r d) i = buf (r + i) := by
  rw [byteAt, List.getD_eq_getElem?_getD, getElem?_window buf h, Option.getD_some]

/-- MemRead, inside the buffer, answers the range's bytes. -/
theorem memRead_eq_window {s : State} {i n : Nat} (h : i + n ≤ s.cap) : s.memRead i n = .ok (window s.byte i n) := by
  obtain ⟨bs, hbs⟩ := memRead_total s i n h
  obtain ⟨hlen, hread⟩ := memRead_spec s i n bs hbs
  rw [hbs, Except.ok.injEq]
  apply List.ext_getElem?
  intro k
  by_cases hk : k < n
  · obtain ⟨b, hget, hb⟩ := hread k hk
    obtain ⟨-, rfl⟩ := (readByte_eq_ok s (i + k) b).1 hb
    rw [hget, getElem?_window _ hk, State.byte]
  · rw [List.getElem?_eq_none (by omega), List.getElem?_eq_none (by simpa using hk)]

/-! #### A candidate's fields in an index range -/

/-- `be16` as the spec computes it (00_scope.md R7). -/
theorem be16_toNat (hi lo : Byte) : (be16 hi lo).toNat = hi.toNat * 256 + lo.toNat := by
  rw [be16, BitVec.toNat_append, ← Nat.shiftLeft_add_eq_or_of_lt lo.isLt, Nat.shiftLeft_eq]

/-- The payload is a range of its own. -/
theorem payloadOf_window (buf : Nat → Byte) {r d hdr len : Nat} (h : hdr + len ≤ d) :
    payloadOf hdr len (window buf r d) = window buf (r + hdr) len := by
  apply List.ext_getElem?
  intro k
  rw [payloadOf, List.getElem?_take]
  split
  · next hk => rw [List.getElem?_drop, getElem?_window buf (by omega), getElem?_window buf hk, Nat.add_assoc]
  · next hk => exact (List.getElem?_eq_none (by simpa using hk)).symm

theorem terminatorOf_window (buf : Nat → Byte) {r d hdr len : Nat} (h : totalLen hdr len ≤ d) :
    terminatorOf hdr len (window buf r d) = buf (r + totalLen hdr len - 1) := by
  unfold totalLen at h
  rw [terminatorOf, byteAt_window buf (by unfold totalLen; omega)]
  rfl

theorem rxCrc_window_toNat (buf : Nat → Byte) {r d hdr len : Nat} (h : totalLen hdr len ≤ d) :
    (rxCrc hdr len (window buf r d)).toNat
      = (buf (r + hdr + len)).toNat * 256 + (buf (r + hdr + len + 1)).toNat := by
  unfold totalLen at h
  rw [rxCrc, be16_toNat, byteAt_window buf (by omega), byteAt_window buf (by omega)]
  simp only [Nat.add_assoc]

/-! #### The stages S1 to S9 by index -/

/-- S5 to S9 of R65's pseudocode, which both forms share, by buffer index (`judgeBody_window` ties it to the model,
`decodeFrameR65_short` and `decodeFrameR65_long` to the pseudocode). -/
def bodyR65 (n r d hdr len : Nat) (buf : Nat → Byte) : ScanOutcome :=
  if len > n then .invalidData .exceedsCapacity
  else if d < hdr + len + 3 then .needMoreBytes (hdr + len + 3 - d)
  else if buf (r + (hdr + len + 3) - 1) ≠ 0x03 then .invalidData .badTerminator
  else if (crc16 (window buf (r + hdr) len)).toNat
      ≠ (buf (r + hdr + len)).toNat * 256 + (buf (r + hdr + len + 1)).toNat then .invalidData .crcMismatch
  else .consumed (hdr + len + 3) (r + hdr) (r + hdr + len)

/-- The model's S5 to S9 on a range's bytes are those of the pseudocode. -/
theorem judgeBody_window (n r d hdr len : Nat) (buf : Nat → Byte) :
    judgeBody n r hdr len (window buf r d) = bodyR65 n r d hdr len buf := by
  unfold judgeBody bodyR65
  rw [length_window]
  by_cases hcap : n < len
  · rw [if_pos hcap, if_pos hcap]
  by_cases hlen : d < totalLen hdr len
  · rw [if_neg hcap, if_neg hcap, if_pos hlen, if_pos (show d < hdr + len + 3 from hlen), totalLen]
  have hpresent : totalLen hdr len ≤ d := Nat.le_of_not_lt hlen
  have hpayload : hdr + len ≤ d := by unfold totalLen at hpresent; omega
  have hcrc : crc16 (payloadOf hdr len (window buf r d)) ≠ rxCrc hdr len (window buf r d) ↔
      (crc16 (window buf (r + hdr) len)).toNat
        ≠ (buf (r + hdr + len)).toNat * 256 + (buf (r + hdr + len + 1)).toNat := by
    rw [payloadOf_window buf hpayload, ← rxCrc_window_toNat buf hpresent, ne_eq, ne_eq, BitVec.toNat_inj]
  rw [terminatorOf_window buf hpresent]
  simp only [hcrc, totalLen, Config.terminator]

/-- A whole SHORT header: a zero length is rejected, any other goes on to S5 (41_frame_scanner.md R65). -/
theorem scanBytes_short (n r : Nat) (len : Byte) (rest : Bytes) :
    scanBytes n r (0x02 :: len :: rest) =
      if len = 0 then .invalidData .zeroLength else judgeBody n r 2 len.toNat (0x02 :: len :: rest) := by
  have hrow : scanBytes n r (0x02 :: len :: rest) = judgeShort n r len (0x02 :: len :: rest) := rfl
  rw [hrow, judgeShort, withHeader_of_le _ (by decide) (by simp [shortHdr]), shortHdr]

/-- A whole LONG header: a length below 255 is rejected, any other goes on to S5 (41_frame_scanner.md R65). -/
theorem scanBytes_long (n r : Nat) (hi lo : Byte) (rest : Bytes) :
    scanBytes n r (0x03 :: hi :: lo :: rest) =
      if (be16 hi lo).toNat < 255 then .invalidData .redundantLength
      else judgeBody n r 3 (be16 hi lo).toNat (0x03 :: hi :: lo :: rest) := by
  have hrow : scanBytes n r (0x03 :: hi :: lo :: rest) = judgeLong n r (be16 hi lo) (0x03 :: hi :: lo :: rest) := rfl
  rw [hrow, judgeLong, withHeader_of_le _ (by decide) (by simp [longHdr]), longHdr]

/-- The pseudocode behind a whole SHORT header: S4's test of the length, then S5 to S9. -/
theorem decodeFrameR65_short {n r d : Nat} {buf : Nat → Byte} (hd : 2 ≤ d) (hsel : buf r = 0x02) :
    decodeFrameR65 n r d buf =
      if buf (r + 1) = 0 then .invalidData .zeroLength else bodyR65 n r d 2 (buf (r + 1)).toNat buf := by
  rw [decodeFrameR65, hsel, if_neg (by omega), if_neg (by simp)]
  refine (if_neg (Nat.not_lt.2 hd)).trans ?_
  by_cases hzero : buf (r + 1) = 0
  · rw [if_pos hzero]
    exact if_pos ⟨rfl, congrArg BitVec.toNat hzero⟩
  · rw [if_neg hzero]
    refine (if_neg fun h => hzero (BitVec.eq_of_toNat_eq h.2)).trans (if_neg ?_)
    simp

/-- The pseudocode behind a whole LONG header: S4's test of the length, then S5 to S9. -/
theorem decodeFrameR65_long {n r d : Nat} {buf : Nat → Byte} (hd : 3 ≤ d) (hsel : buf r = 0x03) :
    decodeFrameR65 n r d buf =
      if (be16 (buf (r + 1)) (buf (r + 2))).toNat < 255 then .invalidData .redundantLength
      else bodyR65 n r d 3 (be16 (buf (r + 1)) (buf (r + 2))).toNat buf := by
  rw [decodeFrameR65, hsel, if_neg (by omega), if_neg (by simp), be16_toNat]
  refine (if_neg (Nat.not_lt.2 hd)).trans ((if_neg fun h => by cases h.1).trans ?_)
  by_cases hlow : (buf (r + 1)).toNat * 256 + (buf (r + 2)).toNat < 255
  · rw [if_pos hlow]
    exact if_pos ⟨rfl, hlow⟩
  · rw [if_neg hlow]
    exact if_neg fun h => hlow h.2

/-- A SHORT header that is not whole: its length byte is asked for (41_frame_scanner.md S3). -/
theorem decodeFrameR65_short_one {n r : Nat} {buf : Nat → Byte} (hsel : buf r = 0x02) :
    decodeFrameR65 n r 1 buf = .needMoreBytes 1 := by
  simp [decodeFrameR65, hsel]

/-- A LONG header that is not whole: what is missing of it is asked for (41_frame_scanner.md S3). -/
theorem decodeFrameR65_long_part {n r d : Nat} {buf : Nat → Byte} (hd : 1 ≤ d) (hlt : d < 3) (hsel : buf r = 0x03) :
    decodeFrameR65 n r d buf = .needMoreBytes (3 - d) := by
  simp [decodeFrameR65, hsel, hlt, show d ≠ 0 by omega]

/-- A selector that is neither SHORT's nor LONG's is rejected, however few bytes follow it. -/
theorem decodeFrameR65_of_badSelector {n r d : Nat} {buf : Nat → Byte} (hd : 1 ≤ d) (h2 : buf r ≠ 0x02)
    (h3 : buf r ≠ 0x03) : decodeFrameR65 n r d buf = .invalidData .badSelector := by
  rw [decodeFrameR65, if_neg (by omega), if_pos ⟨h2, h3⟩]

/-- The scanner on the bytes of an index range is R65's pseudocode by index: by the selector, then by whether the header
is whole; from S5 on it is `judgeBody_window`. -/
theorem scanBytes_window (n r d : Nat) (buf : Nat → Byte) :
    scanBytes n r (window buf r d) = decodeFrameR65 n r d buf := by
  cases d with
  | zero => rfl
  | succ d =>
    by_cases h2 : buf r = 0x02
    · cases d with
      | zero =>
        rw [window_succ, h2, decodeFrameR65_short_one h2]
        rfl
      | succ d =>
        have hw : window buf r (d + 2) = 0x02 :: buf (r + 1) :: window buf (r + 2) d := by
          rw [window_succ, window_succ, h2]
        rw [hw, scanBytes_short, ← hw, judgeBody_window, decodeFrameR65_short (by omega) h2]
    by_cases h3 : buf r = 0x03
    · match d with
      | 0 | 1 =>
        rw [window_succ, h3, decodeFrameR65_long_part (by decide) (by decide) h3]
        rfl
      | d + 2 =>
        have hw : window buf r (d + 3) = 0x03 :: buf (r + 1) :: buf (r + 2) :: window buf (r + 3) d := by
          rw [window_succ, window_succ, window_succ, h3]
        rw [hw, scanBytes_long, ← hw, judgeBody_window, decodeFrameR65_long (by omega) h3]
    · rw [window_succ, scanBytes_of_badSelector n r _ h2 h3, decodeFrameR65_of_badSelector (by omega) h2 h3]

/-! #### The operation -/

/-- DECODE_FRAME within the pending bytes always answers: it notes and returns the scanner's outcome on the first `d` of
them. -/
theorem execDecodeFrame_of_le_pending {s : State} {d : Nat} (h : s.Inv) (hd : d ≤ s.pending) :
    execDecodeFrame d s =
      .next ((s.noteOutcome (scanBytes s.cap s.readIdx (window s.byte s.readIdx d))).setResult
        (some (.outcome (scanBytes s.cap s.readIdx (window s.byte s.readIdx d))))) := by
  have hrange : s.readIdx + d ≤ s.cap := by
    obtain ⟨-, -, -, hrw, hwc, -⟩ := h
    unfold State.pending at hd
    omega
  rw [execDecodeFrame, guarded_of_none (domainRefusal_of_inv h), if_neg (Nat.not_lt.2 hd), memRead_eq_window hrange,
    orFault_ok]

/-- Settles O12: DECODE_FRAME notes the scanner's outcome on the first `d` pending bytes, and by `scanBytes_window` that
is the pseudocode's. -/
theorem decodeFrameFollowsItsPseudocode : Obligations.DecodeFrameFollowsItsPseudocode := by
  intro s d h hd
  refine (execDecodeFrame_of_le_pending h hd).trans ?_
  rw [scanBytes_window]
  cases decodeFrameR65 s.cap s.readIdx d s.byte with
  | needMoreBytes k => rfl
  | invalidData c => rfl
  | consumed count lo hi => rfl

end Sys2Proof.Machine

/-! ### SIZE_HINT (43_encoder.md R100) -/

namespace Sys2Proof.Machine

/-- SIZE_HINT completes in every state and only returns its value: it reads neither N nor the decoder's state. -/
theorem exec_sizeHint (frameLen : Nat) (s : State) :
    exec (.sizeHint frameLen) s = .next { s with result := some (sizeHint frameLen) } := rfl

/-- A SHORT frame has five bytes around its payload: selector, one length byte, two CRC bytes, terminator
(30_encoding.md R42). -/
theorem totalLen_shortHdr (len : Nat) : totalLen shortHdr len = len + 5 := by
  unfold totalLen shortHdr
  omega

/-- A LONG frame has six, its length field having two bytes (30_encoding.md R43). -/
theorem totalLen_longHdr (len : Nat) : totalLen longHdr len = len + 6 := by
  unfold totalLen longHdr
  omega

theorem sizeHint_of_short {frameLen : Nat} (h : frameLen ≤ 255) : sizeHint frameLen = .size (frameLen + 5) := by
  rw [sizeHint, if_pos h, totalLen_shortHdr]

theorem sizeHint_of_long {frameLen : Nat} (hlo : 256 ≤ frameLen) (hhi : frameLen ≤ 512) :
    sizeHint frameLen = .size (frameLen + 6) := by
  rw [sizeHint, if_neg (Nat.not_le.2 hlo), if_pos (show frameLen ≤ Config.sizeHintMax from hhi), totalLen_longHdr]

theorem sizeHint_of_tooBig {frameLen : Nat} (h : 512 < frameLen) : sizeHint frameLen = .sizeError .tooBig := by
  have hmax : ¬ frameLen ≤ Config.sizeHintMax := Nat.not_le.2 h
  rw [sizeHint, if_neg (by omega), if_neg hmax]

/-- Settles O44: the operation only returns `sizeHint`, whose three ranges of the length are R100's. -/
theorem sizeHintGivesTheWireSize : Obligations.SizeHintGivesTheWireSize := by
  intro frameLen s
  rw [exec_sizeHint]
  refine ⟨fun hshort => ?_, fun hlo hhi => ?_, fun hbig => ?_⟩
  · rw [sizeHint_of_short hshort]
  · rw [sizeHint_of_long hlo hhi]
  · rw [sizeHint_of_tooBig hbig]

end Sys2Proof.Machine

/-! ### Header encoding (30_encoding.md sections 2, 3 and 8) -/

namespace Sys2Proof.Machine

/-! #### Decoding what the encoder writes -/

/-- A selector other than SHORT's and LONG's is its row's match bits and its free bits, so the row is encoded as the
selector itself. -/
theorem encode_decodeInvalid {sel : Byte} (h2 : sel ≠ 0x02) (h3 : sel ≠ 0x03) :
    encode (decodeInvalid sel) = some [sel] := by
  revert sel
  decide +kernel

@[simp] theorem highByte_be16 (hi lo : Byte) : highByte (be16 hi lo) = hi :=
  BitVec.extractLsb'_append_eq_left

@[simp] theorem lowByte_be16 (hi lo : Byte) : lowByte (be16 hi lo) = lo :=
  BitVec.extractLsb'_append_eq_right

@[simp] theorem be16_highByte_lowByte (v : Half) : be16 (highByte v) (lowByte v) = v := by
  apply BitVec.eq_of_toNat_eq
  have hlt := v.isLt
  rw [be16_toNat, highByte, lowByte, BitVec.extractLsb'_toNat, BitVec.extractLsb'_toNat, Nat.shiftRight_eq_div_pow]
  omega

/-- A whole SHORT header decodes to its length, whatever follows (30_encoding.md R42). -/
theorem decode_shortHeader (len : Byte) (rest : Bytes) : decode (shortHeader len ++ rest) = .instr (.short len) := rfl

/-- A whole LONG header decodes to its length, whatever follows (30_encoding.md R43). -/
theorem decode_longHeader (len : Half) (rest : Bytes) : decode (longHeader len ++ rest) = .instr (.long len) :=
  congrArg (fun v => Decoded.instr (.long v)) (be16_highByte_lowByte len)

/-- A one-byte header that stands for `i` is read back as `i`: the table's other nine rows. -/
theorem decode_of_decodeInvalid_eq {sel : Byte} {i : Instr} (h : sel ≠ 0x02 ∧ sel ≠ 0x03 ∧ decodeInvalid sel = i)
    (rest : Bytes) : decode ([sel] ++ rest) = .instr i := by
  obtain ⟨h2, h3, rfl⟩ := h
  exact decode_of_badSelector rest h2 h3

/-- Settles O1, by the rows: the two lengths are read back byte by byte, and in the other nine rows the free bits are found
where the encoder puts them. -/
theorem encodedHeaderDecodesToItsInstruction : Obligations.EncodedHeaderDecodesToItsInstruction := by
  intro i hb rest h
  cases i <;> cases h
  case short len => exact decode_shortHeader len rest
  case long len => exact decode_longHeader len rest
  case reserved04 => exact decode_of_decodeInvalid_eq (by decide) rest
  case invalid05 => exact decode_of_decodeInvalid_eq (by decide) rest
  case invalid0001 x => exact decode_of_decodeInvalid_eq (by decide +revert) rest
  case invalid0607 x => exact decode_of_decodeInvalid_eq (by decide +revert) rest
  case invalid080F x => exact decode_of_decodeInvalid_eq (by decide +revert) rest
  case invalid101F x => exact decode_of_decodeInvalid_eq (by decide +revert) rest
  case invalid203F x => exact decode_of_decodeInvalid_eq (by decide +revert) rest
  case invalid407F x => exact decode_of_decodeInvalid_eq (by decide +revert) rest
  case invalid80FF x => exact decode_of_decodeInvalid_eq (by decide +revert) rest

/-- Settles O2, by the forms of a decoded candidate. -/
theorem decodedBytesBeginWithTheEncoding : Obligations.DecodedBytesBeginWithTheEncoding := by
  intro bs i h
  rcases decode_cases bs with ⟨-, hd⟩ | ⟨-, hd⟩ | ⟨-, hd⟩ | ⟨-, -, hd⟩ | ⟨l, rest, rfl, hd⟩ | ⟨hi, lo, rest, rfl, hd⟩ |
    ⟨sel, rest, rfl, h2, h3, hd⟩
  all_goals rw [hd] at h; cases h
  case inr.inr.inr.inr.inl => exact ⟨[0x02, l], rest, rfl, rfl⟩
  case inr.inr.inr.inr.inr.inl =>
    refine ⟨[0x03, hi, lo], rest, ?_, rfl⟩
    rw [encode, longHeader, highByte_be16, lowByte_be16, Config.selLong]
  case inr.inr.inr.inr.inr.inr => exact ⟨[sel], rest, encode_decodeInvalid h2 h3, rfl⟩

/-! #### The rows of the opcode table -/

/-- Every instruction's encoding begins with a byte of its own row. -/
theorem encode_matches_rowPattern (i : Instr) : Laws.RowPattern.Statement i := by
  cases i with
  | short len => exact Laws.RowPattern.short len
  | long len => exact Laws.RowPattern.long len
  | reserved04 => exact Laws.RowPattern.reserved04
  | invalid0001 x => exact Laws.RowPattern.invalid0001 x
  | invalid05 => exact Laws.RowPattern.invalid05
  | invalid0607 x => exact Laws.RowPattern.invalid0607 x
  | invalid080F x => exact Laws.RowPattern.invalid080F x
  | invalid101F x => exact Laws.RowPattern.invalid101F x
  | invalid203F x => exact Laws.RowPattern.invalid203F x
  | invalid407F x => exact Laws.RowPattern.invalid407F x
  | invalid80FF x => exact Laws.RowPattern.invalid80FF x
  | reset => exact Laws.RowPattern.reset
  | eatByte b => exact Laws.RowPattern.eatByte b
  | decodeFrame d => exact Laws.RowPattern.decodeFrame d
  | crc16 s => exact Laws.RowPattern.crc16 s
  | sizeHint f => exact Laws.RowPattern.sizeHint f
  | commitFrame p d n => exact Laws.RowPattern.commitFrame p d n

/-- A row's pattern, where it has one, is one of the table's eleven. -/
theorem mem_selectorPatterns {i : Instr} {p : Byte × Byte} (h : rowPattern i = some p) : p ∈ selectorPatterns := by
  cases i <;> cases h <;> decide

/-- The eleven patterns split the 256 selector values: exactly one matches. -/
theorem exactly_one_pattern (sel : Byte) : (selectorPatterns.filter fun p => sel &&& p.2 == p.1).length = 1 := by
  revert sel
  decide +kernel

/-- Settles O3: the split of the 256 values is evaluated, and the decoder's row matches because the bytes begin with the
decoded instruction's encoding. -/
theorem everySelectorHasExactlyOneRow : Obligations.EverySelectorHasExactlyOneRow := by
  refine fun sel => ⟨exactly_one_pattern sel, fun rest i h => ?_⟩
  obtain ⟨hb, behind, hencode, hbytes⟩ := decodedBytesBeginWithTheEncoding _ i h
  obtain ⟨sel', rest', p, rfl, hrow, hmatch⟩ := encode_matches_rowPattern i hb hencode
  obtain ⟨rfl, -⟩ := List.cons.inj hbytes
  exact ⟨p, hrow, mem_selectorPatterns hrow, hmatch⟩

/-- Settles O4: each word is decoded by evaluation. -/
theorem headerWordsOfTheSpecDecode : Obligations.HeaderWordsOfTheSpecDecode := by
  unfold Obligations.HeaderWordsOfTheSpecDecode
  decide

end Sys2Proof.Machine

/-! ### CRC16 by other means (40_crc.md R62, R64) -/

namespace Sys2Proof.Machine

/-! #### The shift register and the accumulator -/

/-- `k` shifts to the left, and the bits that leave at the top, first one first. -/
def topBits : Nat → Half → List Bool
  | 0, _ => []
  | k + 1, x => x.msb :: topBits k (x <<< 1)

/-- One shift of an accumulator into which `x` was xored is one clock of the register with the top bit of `x`; the other
bits of `x` move up. -/
theorem crcShift_xor (crc x : Half) : crcShift (crc ^^^ x) = crcClock crc x.msb ^^^ x <<< 1 := by
  have hpoly : Config.crcPoly = 0x1021 := rfl
  rw [crcShift, crcClock, BitVec.msb_xor, BitVec.shiftLeft_xor_distrib, hpoly]
  split
  · ac_rfl
  · rfl

/-- So `k` shifts are `k` clocks with the top bits of `x`. -/
theorem crcShifts_xor (k : Nat) (crc x : Half) :
    crcShifts k (crc ^^^ x) = (topBits k x).foldl crcClock crc ^^^ x <<< k := by
  induction k generalizing crc x with
  | zero => simp [topBits, crcShifts]
  | succ k ih =>
    rw [crcShifts_succ, crcShift_xor, ih, topBits, List.foldl_cons, ← BitVec.shiftLeft_add, Nat.add_comm 1 k]

/-- A byte at the top has the bits that the shift register takes in, and nothing is left of it after eight shifts. -/
theorem topBits_byte (b : Byte) : topBits 8 (b.setWidth 16 <<< 8) = bitsOf b ∧ (b.setWidth 16 <<< 8 : Half) <<< 8 = 0 := by
  revert b
  decide +kernel

/-- Taking in a byte is eight clocks with its bits. -/
theorem crcByte_eq_foldl_crcClock (crc : Half) (b : Byte) : crcByte crc b = (bitsOf b).foldl crcClock crc := by
  obtain ⟨hbits, hgone⟩ := topBits_byte b
  rw [crcByte, crcShifts_xor, hbits, hgone]
  exact BitVec.xor_zero

theorem crcFrom_eq_foldl_crcClock (crc : Half) (s : Bytes) : crcFrom crc s = (s.flatMap bitsOf).foldl crcClock crc := by
  induction s generalizing crc with
  | nil => rfl
  | cons b s ih => rw [crcFrom_cons, ih, crcByte_eq_foldl_crcClock, List.flatMap_cons, List.foldl_append]

/-- Settles O7: byte by byte, the eight shifts are the eight clocks with the byte's bits. -/
theorem crcEqualsTheBitSerialRegister : Obligations.CrcEqualsTheBitSerialRegister := fun s =>
  (crc16_eq_crcFrom s).trans (crcFrom_eq_foldl_crcClock 0 s)

/-- Settles O11: the operation only returns its value, which is the register's by O7. -/
theorem crcOperationReturnsItsValue : Obligations.CrcOperationReturnsItsValue := by
  intro bs s
  have hexec : exec (.crc16 bs) s = .next { s with result := some (.crc (crc16 bs)) } := rfl
  rw [hexec, crcEqualsTheBitSerialRegister]

/-! #### The table of one-byte CRCs -/

/-- The accumulator is its high byte at the top and its low byte. -/
theorem eq_highByte_xor_lowByte (v : Half) : v = (highByte v).setWidth 16 <<< 8 ^^^ (lowByte v).setWidth 16 := by
  apply BitVec.eq_of_getLsbD_eq
  intro i hi
  rw [BitVec.getLsbD_xor, BitVec.getLsbD_shiftLeft, BitVec.getLsbD_setWidth, BitVec.getLsbD_setWidth, highByte, lowByte,
    BitVec.getLsbD_extractLsb', BitVec.getLsbD_extractLsb']
  by_cases h8 : i < 8
  · simp [h8, hi]
  · have h16 : i - 8 < 8 := by omega
    simp [h8, h16, hi, show i - 8 < 16 by omega, show 8 + (i - 8) = i by omega]

/-- A byte at the bottom sends only zero bits out in eight shifts. -/
theorem topBits_lowByte (b : Byte) : topBits 8 (b.setWidth 16) = List.replicate 8 false := by
  revert b
  decide +kernel

/-- A byte at the bottom only moves up in eight shifts. -/
theorem crcShifts_xor_lowByte (crc : Half) (b : Byte) :
    crcShifts 8 (crc ^^^ b.setWidth 16) = crcShifts 8 crc ^^^ b.setWidth 16 <<< 8 := by
  have hzero : topBits 8 (0 : Half) = List.replicate 8 false := topBits_lowByte 0
  have hcrc : crcShifts 8 crc = (topBits 8 (0 : Half)).foldl crcClock crc := by simpa using crcShifts_xor 8 crc 0
  rw [crcShifts_xor, topBits_lowByte, hcrc, hzero]

theorem shiftLeft_eight_eq_lowByte (v : Half) : v <<< 8 = (lowByte v).setWidth 16 <<< 8 := by
  conv_lhs => rw [eq_highByte_xor_lowByte v, BitVec.shiftLeft_xor_distrib, (topBits_byte _).2]
  exact BitVec.zero_xor

theorem crc16_singleton (b : Byte) : crc16 [b] = crcShifts 8 (b.setWidth 16 <<< 8) := by
  rw [crc16_eq_crcFrom, crcFrom_cons, crcFrom, crcByte]
  exact congrArg (crcShifts 8) BitVec.zero_xor

/-- Taking in a byte is one step of the table: the accumulator's high byte meets the byte, its low byte moves up. -/
theorem crcByte_eq_crcTableStep (crc : Half) (b : Byte) : crcByte crc b = crcTableStep crc b := by
  have hsplit : crc ^^^ b.setWidth 16 <<< 8 = (highByte crc ^^^ b).setWidth 16 <<< 8 ^^^ (lowByte crc).setWidth 16 := by
    conv_lhs => rw [eq_highByte_xor_lowByte crc]
    rw [BitVec.setWidth_xor, BitVec.shiftLeft_xor_distrib]
    ac_rfl
  rw [crcByte, hsplit, crcShifts_xor_lowByte, crcTableStep, crc16_singleton, shiftLeft_eight_eq_lowByte crc]
  exact BitVec.xor_comm _ _

theorem crcFrom_eq_foldl_crcTableStep (crc : Half) (s : Bytes) : crcFrom crc s = s.foldl crcTableStep crc := by
  induction s generalizing crc with
  | nil => rfl
  | cons b s ih => rw [crcFrom_cons, ih, crcByte_eq_crcTableStep, List.foldl_cons]

/-- Settles O8: byte by byte, and the sixteen listed entries are evaluated. -/
theorem crcEqualsTheTableDrivenComputation : Obligations.CrcEqualsTheTableDrivenComputation :=
  ⟨fun s => (crc16_eq_crcFrom s).trans (crcFrom_eq_foldl_crcTableStep 0 s), by decide +kernel⟩

/-! #### No two accumulators meet -/

/-- The accumulator before a shift: bit 0 afterwards is the bit that left at the top, as the polynomial's bit 0 is 1. -/
def crcUnshift (crc : Half) : Half :=
  if crc.getLsbD 0 then ((crc ^^^ Config.crcPoly) >>> 1) + 0x8000 else crc >>> 1

theorem crcUnshift_crcShift (crc : Half) : crcUnshift (crcShift crc) = crc := by
  have hpoly : Config.crcPoly.getLsbD 0 = true := by decide
  have hlt := crc.isLt
  have hmsb := BitVec.msb_eq_decide crc
  apply BitVec.eq_of_toNat_eq
  unfold crcUnshift crcShift
  by_cases htop : crc.msb = true
  · rw [if_pos htop, if_pos (by simp [hpoly]), BitVec.xor_assoc, BitVec.xor_self]
    simp only [htop, true_eq_decide_iff] at hmsb
    simp only [BitVec.xor_zero, BitVec.ofNat_eq_ofNat, BitVec.toNat_add, BitVec.toNat_ushiftRight,
      BitVec.toNat_shiftLeft, Nat.shiftLeft_eq, pow_one, Nat.reducePow, Nat.shiftRight_eq_div_pow, BitVec.toNat_ofNat,
      Nat.reduceMod]
    omega
  · rw [if_neg htop, if_neg (by simp)]
    simp only [htop, false_eq_decide_iff] at hmsb
    simp only [BitVec.toNat_ushiftRight, BitVec.toNat_shiftLeft, Nat.shiftLeft_eq, pow_one, Nat.reducePow,
      Nat.shiftRight_eq_div_pow]
    omega

theorem crcShift_injective : Function.Injective crcShift := Function.LeftInverse.injective crcUnshift_crcShift

theorem crcShifts_injective (k : Nat) : Function.Injective (crcShifts k) := by
  induction k with
  | zero => exact Function.injective_id
  | succ k ih =>
    intro x y h
    rw [crcShifts_succ, crcShifts_succ] at h
    exact crcShift_injective (ih h)

theorem crcByte_injective_left (b : Byte) : Function.Injective fun crc => crcByte crc b := fun _ _ h =>
  (BitVec.xor_left_inj _).1 (crcShifts_injective 8 h)

/-- Different bytes taken in from one accumulator leave different accumulators. -/
theorem crcByte_injective_right (crc : Half) : Function.Injective (crcByte crc) := by
  intro a b h
  have hxor := (BitVec.xor_right_inj _).1 (crcShifts_injective 8 h)
  have hbits : (a.setWidth 16 <<< 8).toNat = (b.setWidth 16 <<< 8 : Half).toNat := congrArg BitVec.toNat hxor
  have ha := a.isLt
  have hb := b.isLt
  simp only [BitVec.toNat_shiftLeft, BitVec.toNat_setWidth, Nat.reducePow, Nat.shiftLeft_eq, Nat.mod_mul_mod] at hbits
  exact BitVec.eq_of_toNat_eq (by omega)

theorem crcFrom_injective (s : Bytes) : Function.Injective fun crc => crcFrom crc s := by
  induction s with
  | nil => exact Function.injective_id
  | cons b s ih =>
    intro x y h
    simp only [crcFrom_cons] at h
    exact crcByte_injective_left b (ih h)

/-! #### The residue -/

/-- An accumulator that takes in its own two bytes ends at 0. -/
theorem crcFrom_own_bytes (v : Half) : crcFrom v [highByte v, lowByte v] = 0 := by
  have hsplit : v ^^^ (highByte v).setWidth 16 <<< 8 = 0 ^^^ (lowByte v).setWidth 16 := by
    conv_lhs => lhs; rw [eq_highByte_xor_lowByte v, BitVec.xor_comm]
    rw [BitVec.xor_assoc, BitVec.xor_self, BitVec.xor_comm]
    rfl
  have hzero : crcShifts 8 0 = 0 := by decide
  have hfirst : crcByte v (highByte v) = (lowByte v).setWidth 16 <<< 8 := by
    rw [crcByte, hsplit, crcShifts_xor_lowByte, hzero]
    exact BitVec.zero_xor
  rw [crcFrom_cons, hfirst, crcFrom_cons, crcFrom, crcByte, BitVec.xor_self]
  exact hzero

/-- Settles O9: from the payload's CRC the field's bytes lead to 0 exactly where the field is that CRC, since different
accumulators stay different. -/
theorem crcResidueTestGivesTheSameVerdict : Obligations.CrcResidueTestGivesTheSameVerdict := by
  intro p v
  rw [crc16_eq_crcFrom, crcFrom_append, ← crc16_eq_crcFrom, ← crcFrom_own_bytes v]
  exact (crcFrom_injective [highByte v, lowByte v]).eq_iff

end Sys2Proof.Machine

/-! ### The scanner on longer strings and on whole frames (41_frame_scanner.md R65, R76; 30_encoding.md R40 to R50) -/

namespace Sys2Proof.Machine

/-! #### More bytes behind the inspected ones -/

theorem byteAt_append_left {bs : Bytes} (more : Bytes) {i : Nat} (h : i < bs.length) :
    byteAt (bs ++ more) i = byteAt bs i := by
  rw [byteAt, List.getD_append _ _ _ _ h, byteAt]

theorem payloadOf_append {hdr len : Nat} {bs : Bytes} (more : Bytes) (h : hdr + len ≤ bs.length) :
    payloadOf hdr len (bs ++ more) = payloadOf hdr len bs := by
  rw [payloadOf, payloadOf, List.drop_append_of_le_length (by omega),
    List.take_append_of_le_length (by rw [List.length_drop]; omega)]

/-- S5 to S9 read no byte behind the frame: a verdict that did not wait stays. -/
theorem judgeBody_append {n r hdr len : Nat} {bs : Bytes} (more : Bytes)
    (h : ∀ k, judgeBody n r hdr len bs ≠ .needMoreBytes k) :
    judgeBody n r hdr len (bs ++ more) = judgeBody n r hdr len bs := by
  unfold judgeBody at h ⊢
  by_cases hcap : n < len
  · rw [if_pos hcap, if_pos hcap]
  by_cases hlen : bs.length < totalLen hdr len
  · rw [if_neg hcap, if_pos hlen] at h
    exact absurd rfl (h _)
  have hlen' : ¬ (bs ++ more).length < totalLen hdr len := by rw [List.length_append]; omega
  have hterm : terminatorOf hdr len (bs ++ more) = terminatorOf hdr len bs :=
    byteAt_append_left more (by unfold totalLen at hlen ⊢; omega)
  have hcrc : rxCrc hdr len (bs ++ more) = rxCrc hdr len bs := by
    unfold totalLen at hlen
    rw [rxCrc, byteAt_append_left more (by omega), byteAt_append_left more (by omega), rxCrc]
  have hpay : payloadOf hdr len (bs ++ more) = payloadOf hdr len bs :=
    payloadOf_append more (by unfold totalLen at hlen; omega)
  rw [if_neg hcap, if_neg hcap, if_neg hlen, if_neg hlen', hterm, hcrc, hpay]

/-- Settles O14, by the header's forms; from S5 on it is `judgeBody_append`. -/
theorem verdictDoesNotChangeWithMoreBytes : Obligations.VerdictDoesNotChangeWithMoreBytes := by
  intro n r bs more h
  rcases scanBytes_cases n r bs with ⟨k, -, -, -, -, e⟩ | ⟨l, rest, rfl, -⟩ | ⟨a, l, rest, rfl, -⟩ |
    ⟨sel, rest, rfl, h2, h3, e⟩
  · exact absurd e (h k)
  · rw [scanBytes_short] at h ⊢
    rw [List.cons_append, List.cons_append, scanBytes_short]
    split_ifs with hl
    · rfl
    · rw [if_neg hl] at h
      exact judgeBody_append more h
  · rw [scanBytes_long] at h ⊢
    rw [List.cons_append, List.cons_append, List.cons_append, scanBytes_long]
    split_ifs with hl
    · rfl
    · rw [if_neg hl] at h
      exact judgeBody_append more h
  · rw [e, List.cons_append, scanBytes_of_badSelector n r _ h2 h3]

/-- A count above 1 falls by exactly 1 with the next byte (41_frame_scanner.md R69, R72). -/
theorem scanBytes_concat_of_needMore {n r k : Nat} {bs : Bytes} (b : Byte) (h : scanBytes n r bs = .needMoreBytes k)
    (hk : 1 < k) : scanBytes n r (bs ++ [b]) = .needMoreBytes (k - 1) := by
  have body : ∀ hdr len, judgeBody n r hdr len bs = .needMoreBytes k →
      judgeBody n r hdr len (bs ++ [b]) = .needMoreBytes (k - 1) := by
    intro hdr len hb
    rcases judgeBody_cases n r hdr len bs with ⟨-, e⟩ | ⟨hcap, hlen, e⟩ | ⟨-, -, -, e⟩ | ⟨-, -, -, -, e⟩ |
      ⟨-, -, -, -, e⟩ <;> rw [hb] at e <;> cases e
    have hlen' : (bs ++ [b]).length < totalLen hdr len := by rw [List.length_append, List.length_singleton]; omega
    rw [judgeBody, if_neg (Nat.not_lt.2 hcap), if_pos hlen', List.length_append, List.length_singleton, Nat.sub_sub]
  rcases decode_cases bs with ⟨rfl, -⟩ | ⟨rfl, -⟩ | ⟨rfl, -⟩ | ⟨a, rfl, -⟩ | ⟨l, rest, rfl, -⟩ | ⟨a, l, rest, rfl, -⟩ |
    ⟨sel, rest, rfl, h2, h3, -⟩
  · cases h; omega
  · cases h; omega
  · cases h; rfl
  · cases h; omega
  · rw [scanBytes_short] at h
    rw [List.cons_append, List.cons_append, scanBytes_short]
    split_ifs at h ⊢
    exact body 2 _ h
  · rw [scanBytes_long] at h
    rw [List.cons_append, List.cons_append, List.cons_append, scanBytes_long]
    split_ifs at h ⊢
    exact body 3 _ h
  · rw [scanBytes_of_badSelector n r _ h2 h3] at h
    cases h

/-! #### The candidate's index only names the payload's range -/

/-- The same outcome for a candidate `r` bytes further on in the buffer. -/
def ScanOutcome.shift (r : Nat) : ScanOutcome → ScanOutcome
  | .needMoreBytes k => .needMoreBytes k
  | .invalidData c => .invalidData c
  | .consumed count lo hi => .consumed count (r + lo) (r + hi)

theorem judgeBody_shift (n r hdr len : Nat) (bs : Bytes) :
    judgeBody n r hdr len bs = (judgeBody n 0 hdr len bs).shift r := by
  unfold judgeBody
  split_ifs <;> simp [ScanOutcome.shift, Nat.add_assoc]

/-- The verdict and the payload's offset do not depend on where in the buffer the candidate lies. -/
theorem scanBytes_shift (n r : Nat) (bs : Bytes) : scanBytes n r bs = (scanBytes n 0 bs).shift r := by
  rcases decode_cases bs with ⟨rfl, -⟩ | ⟨rfl, -⟩ | ⟨rfl, -⟩ | ⟨a, rfl, -⟩ | ⟨l, rest, rfl, -⟩ | ⟨a, l, rest, rfl, -⟩ |
    ⟨sel, rest, rfl, h2, h3, -⟩
  case inr.inr.inr.inr.inl =>
    rw [scanBytes_short, scanBytes_short, judgeBody_shift]
    split_ifs <;> rfl
  case inr.inr.inr.inr.inr.inl =>
    rw [scanBytes_long, scanBytes_long, judgeBody_shift]
    split_ifs <;> rfl
  case inr.inr.inr.inr.inr.inr =>
    rw [scanBytes_of_badSelector n r _ h2 h3, scanBytes_of_badSelector n 0 _ h2 h3, ScanOutcome.shift]
  all_goals rfl

/-- Settles O15: both operations judge the same bytes, and the two outcomes are one outcome, shifted. -/
theorem outcomeDependsOnTheInspectedBytesAlone : Obligations.OutcomeDependsOnTheInspectedBytesAlone := by
  intro s₁ s₂ d h₁ h₂ hcap hd₁ hd₂ hagree
  have hbytes : window s₁.byte s₁.readIdx d = window s₂.byte s₂.readIdx d :=
    List.map_congr_left fun k hk => hagree k (List.mem_range.1 hk)
  refine ⟨_, _, execDecodeFrame_of_le_pending h₁ hd₁, execDecodeFrame_of_le_pending h₂ hd₂, ?_⟩
  simp only [State.setResult_result, Option.some.injEq, OpResult.outcome.injEq]
  rw [hbytes, hcap, scanBytes_shift s₂.cap s₁.readIdx, scanBytes_shift s₂.cap s₂.readIdx]
  cases scanBytes s₂.cap 0 (window s₂.byte s₂.readIdx d) with
  | needMoreBytes k => simp [ScanOutcome.shift]
  | invalidData c => simp [ScanOutcome.shift]
  | consumed count lo hi => simp [ScanOutcome.shift]

/-! #### A whole candidate with any payload and any CRC field -/

/-- What follows the header of a candidate with payload `q`, CRC field `v` and a right terminator. -/
def tailWith (q : Bytes) (v : Half) : Bytes := q ++ [highByte v, lowByte v, Config.terminator]

theorem frameTail_eq_tailWith (p : Bytes) : frameTail p = tailWith p (crc16 p) := rfl

@[simp] theorem length_tailWith (q : Bytes) (v : Half) : (tailWith q v).length = q.length + 3 := by simp [tailWith]

/-- The byte at an offset behind a string's end. -/
theorem byteAt_append_right (front behind : Bytes) (i : Nat) :
    byteAt (front ++ behind) (front.length + i) = byteAt behind i := by
  rw [byteAt, List.getD_append_right _ _ _ _ (Nat.le_add_right _ _), Nat.add_sub_cancel_left, byteAt]

/-- S5 to S9 on such a candidate: only the CRC is left to decide. -/
theorem judgeBody_tailWith {n : Nat} (r : Nat) {q : Bytes} (front rest : Bytes) (v : Half) (hq : q.length ≤ n) :
    judgeBody n r front.length q.length (front ++ tailWith q v ++ rest) =
      if crc16 q = v then .consumed (totalLen front.length q.length) (r + front.length) (r + front.length + q.length)
      else .invalidData .crcMismatch := by
  have hlen : ¬ (front ++ tailWith q v ++ rest).length < totalLen front.length q.length := by
    rw [List.length_append, List.length_append, length_tailWith, totalLen]
    omega
  have hfield : ∀ i, byteAt (front ++ tailWith q v ++ rest) (front.length + q.length + i) =
      byteAt ([highByte v, lowByte v, Config.terminator] ++ rest) i := by
    intro i
    have happ : front ++ tailWith q v ++ rest = (front ++ q) ++ ([highByte v, lowByte v, Config.terminator] ++ rest) := by
      simp [tailWith]
    rw [happ, ← List.length_append, byteAt_append_right]
  have hterm : terminatorOf front.length q.length (front ++ tailWith q v ++ rest) = Config.terminator := hfield 2
  have hcrc : rxCrc front.length q.length (front ++ tailWith q v ++ rest) = v := by
    rw [rxCrc, hfield 1]
    exact (congrArg (be16 · _) (hfield 0)).trans (be16_highByte_lowByte v)
  have hpay : payloadOf front.length q.length (front ++ tailWith q v ++ rest) = q := by
    simp [payloadOf, tailWith]
  rw [judgeBody, if_neg (Nat.not_lt.2 hq), if_neg hlen, hterm, if_neg (not_not.2 rfl), hcrc, hpay]
  by_cases he : crc16 q = v
  · rw [if_neg (not_not.2 he), if_pos he]
  · rw [if_pos he, if_neg he]

/-- A SHORT candidate with a right header and terminator. -/
theorem scanBytes_short_tailWith {n : Nat} (r : Nat) {q : Bytes} (rest : Bytes) (v : Half) (hq : q.length ≤ n)
    (h1 : 1 ≤ q.length) (h255 : q.length ≤ 255) :
    scanBytes n r (shortHeader (BitVec.ofNat 8 q.length) ++ tailWith q v ++ rest) =
      if crc16 q = v then .consumed (q.length + 5) (r + 2) (r + 2 + q.length) else .invalidData .crcMismatch := by
  have hval : (BitVec.ofNat 8 q.length).toNat = q.length := by rw [BitVec.toNat_ofNat]; omega
  have hne : BitVec.ofNat 8 q.length ≠ 0 := fun h => by
    have hzero : (BitVec.ofNat 8 q.length).toNat = 0 := congrArg BitVec.toNat h
    omega
  have hscan := scanBytes_short n r (BitVec.ofNat 8 q.length) (tailWith q v ++ rest)
  rw [if_neg hne, hval] at hscan
  refine hscan.trans ((judgeBody_tailWith r (shortHeader (BitVec.ofNat 8 q.length)) rest v hq).trans ?_)
  have hT : totalLen 2 q.length = q.length + 5 := totalLen_shortHdr q.length
  exact congrArg (fun T => if crc16 q = v then ScanOutcome.consumed T _ _ else _) hT

/-- A LONG candidate with a right header and terminator. -/
theorem scanBytes_long_tailWith {n : Nat} (r : Nat) {q : Bytes} (rest : Bytes) (v : Half) (hq : q.length ≤ n)
    (h255 : 255 ≤ q.length) (hmax : q.length ≤ 65535) :
    scanBytes n r (longHeader (BitVec.ofNat 16 q.length) ++ tailWith q v ++ rest) =
      if crc16 q = v then .consumed (q.length + 6) (r + 3) (r + 3 + q.length) else .invalidData .crcMismatch := by
  have hval : (be16 (highByte (BitVec.ofNat 16 q.length)) (lowByte (BitVec.ofNat 16 q.length))).toNat = q.length := by
    rw [be16_highByte_lowByte, BitVec.toNat_ofNat]
    omega
  have hscan := scanBytes_long n r (highByte (BitVec.ofNat 16 q.length)) (lowByte (BitVec.ofNat 16 q.length))
    (tailWith q v ++ rest)
  rw [hval, if_neg (Nat.not_lt.2 h255)] at hscan
  refine hscan.trans ((judgeBody_tailWith r (longHeader (BitVec.ofNat 16 q.length)) rest v hq).trans ?_)
  have hT : totalLen 3 q.length = q.length + 6 := totalLen_longHdr q.length
  exact congrArg (fun T => if crc16 q = v then ScanOutcome.consumed T _ _ else _) hT

/-! #### Frames -/

/-- `f` is a frame of the payload `p`, in one of the two forms (30_encoding.md R53). -/
def IsFrameOf (p f : Bytes) : Prop :=
  (1 ≤ p.length ∧ p.length ≤ 255 ∧ f = shortFrame p) ∨ (255 ≤ p.length ∧ p.length ≤ 65535 ∧ f = longFrame p)

theorem length_shortFrame (p : Bytes) : (shortFrame p).length = p.length + 5 := by
  simp [shortFrame, frameTail, shortHeader]

theorem length_longFrame (p : Bytes) : (longFrame p).length = p.length + 6 := by
  simp [longFrame, frameTail, longHeader]

/-- `ENC(p)` is a frame of `p`. -/
theorem isFrameOf_encFrame {p : Bytes} (h1 : 1 ≤ p.length) (hmax : p.length ≤ 65535) : IsFrameOf p (encFrame p) := by
  unfold encFrame
  split
  · exact .inl ⟨h1, ‹_›, rfl⟩
  · exact .inr ⟨by omega, hmax, rfl⟩

/-- A frame has 5 or, in the LONG form, 6 bytes around its payload. -/
theorem IsFrameOf.length_bounds {p f : Bytes} (h : IsFrameOf p f) :
    1 ≤ p.length ∧ p.length + 5 ≤ f.length ∧ f.length ≤ p.length + 6 ∧ (256 ≤ p.length → f.length = p.length + 6) := by
  rcases h with ⟨h1, h2, rfl⟩ | ⟨h1, h2, rfl⟩
  · rw [length_shortFrame]
    omega
  · rw [length_longFrame]
    omega

/-- A whole frame whose payload passes the capacity test is consumed, whatever follows it, and its payload is found between
the two offsets (41_frame_scanner.md R75). -/
theorem IsFrameOf.scanBytes_eq {p f : Bytes} (h : IsFrameOf p f) {n : Nat} (hn : p.length ≤ n) (rest : Bytes) :
    ∃ lo hi, scanBytes n 0 (f ++ rest) = .consumed f.length lo hi ∧ ((f ++ rest).drop lo).take (hi - lo) = p := by
  rcases h with ⟨h1, h255, rfl⟩ | ⟨h255, hmax, rfl⟩
  · refine ⟨0 + 2, 0 + 2 + p.length, ?_, ?_⟩
    · rw [length_shortFrame]
      exact (scanBytes_short_tailWith 0 rest (crc16 p) hn h1 h255).trans (if_pos rfl)
    · simp [shortFrame, shortHeader, frameTail]
  · refine ⟨0 + 3, 0 + 3 + p.length, ?_, ?_⟩
    · rw [length_longFrame]
      exact (scanBytes_long_tailWith 0 rest (crc16 p) hn h255 hmax).trans (if_pos rfl)
    · simp [longFrame, longHeader, frameTail]

/-- A string of three bytes at least is its bytes 0, 1 and 2 and the rest. -/
theorem take_three_eq {bs : Bytes} (h : 3 ≤ bs.length) : bs.take 3 = [byteAt bs 0, byteAt bs 1, byteAt bs 2] := by
  match bs, h with
  | a :: b :: c :: rest, _ => rfl

/-- What S7 and S8 have checked: behind the header stand the payload, its CRC and the terminator. -/
theorem take_totalLen_eq {hdr len : Nat} {bs : Bytes} (hlen : totalLen hdr len ≤ bs.length)
    (hterm : terminatorOf hdr len bs = Config.terminator) (hcrc : crc16 (payloadOf hdr len bs) = rxCrc hdr len bs) :
    bs.take (totalLen hdr len) = bs.take hdr ++ frameTail (payloadOf hdr len bs) := by
  have hoff : ∀ i, byteAt (bs.drop (hdr + len)) i = byteAt bs (hdr + len + i) := fun i => by
    rw [byteAt, byteAt, List.getD_eq_getElem?_getD, List.getD_eq_getElem?_getD, List.getElem?_drop]
  have h3 : 3 ≤ (bs.drop (hdr + len)).length := by
    rw [List.length_drop]
    unfold totalLen at hlen
    omega
  have hfield : (bs.drop (hdr + len)).take 3 =
      [highByte (rxCrc hdr len bs), lowByte (rxCrc hdr len bs), Config.terminator] := by
    rw [take_three_eq h3, hoff, hoff, hoff, rxCrc, highByte_be16, lowByte_be16, ← hterm, terminatorOf, totalLen]
    rfl
  rw [frameTail, hcrc, ← hfield, payloadOf, totalLen, List.take_add, List.take_add, List.append_assoc]

/-- Consumed, read backwards: the candidate begins with a whole frame of the payload found, and the payload is not longer
than N. -/
theorem scanBytes_consumed_isFrameOf {n count lo hi : Nat} {bs : Bytes} (h : scanBytes n 0 bs = .consumed count lo hi) :
    ∃ p, (bs.drop lo).take (hi - lo) = p ∧ IsFrameOf p (bs.take count) ∧ count ≤ bs.length ∧ p.length ≤ n ∧
      lo ≤ hi ∧ hi ≤ count := by
  have body : ∀ hdr len, judgeBody n 0 hdr len bs = .consumed count lo hi →
      len ≤ n ∧ totalLen hdr len ≤ bs.length ∧ count = totalLen hdr len ∧ lo = hdr ∧ hi = hdr + len ∧
        (payloadOf hdr len bs).length = len ∧
        bs.take (totalLen hdr len) = bs.take hdr ++ frameTail (payloadOf hdr len bs) := by
    intro hdr len hb
    rcases judgeBody_cases n 0 hdr len bs with ⟨-, e⟩ | ⟨-, -, e⟩ | ⟨-, -, -, e⟩ | ⟨-, -, -, -, e⟩ |
      ⟨hcap, hlen, hterm, hcrc, e⟩ <;> rw [hb] at e <;> cases e
    refine ⟨hcap, hlen, rfl, by omega, by omega, ?_, take_totalLen_eq hlen hterm hcrc⟩
    unfold totalLen at hlen
    rw [payloadOf, List.length_take, List.length_drop]
    omega
  have done : ∀ hdr len, judgeBody n 0 hdr len bs = .consumed count lo hi →
      IsFrameOf (payloadOf hdr len bs) (bs.take (totalLen hdr len)) →
      ∃ p, (bs.drop lo).take (hi - lo) = p ∧ IsFrameOf p (bs.take count) ∧ count ≤ bs.length ∧ p.length ≤ n ∧
        lo ≤ hi ∧ hi ≤ count := by
    intro hdr len hb hframe
    obtain ⟨hcap, hlen, rfl, rfl, rfl, hpay, -⟩ := body hdr len hb
    refine ⟨payloadOf lo len bs, ?_, hframe, hlen, by omega, by omega, by unfold totalLen; omega⟩
    rw [Nat.add_sub_cancel_left, payloadOf]
  rcases scanBytes_cases n 0 bs with ⟨k, -, -, -, -, e⟩ | ⟨l, rest, eb, ⟨-, e⟩ | ⟨h0, e⟩⟩ |
    ⟨a, l, rest, eb, ⟨-, e⟩ | ⟨h255, e⟩⟩ | ⟨sel, rest, -, -, -, e⟩ <;> rw [h] at e
  · cases e
  · cases e
  · obtain ⟨-, -, -, -, -, hpay, htake⟩ := body 2 _ e.symm
    have hpos : l.toNat ≠ 0 := fun hz => h0 (BitVec.eq_of_toNat_eq hz)
    have hlt := l.isLt
    refine done 2 _ e.symm (.inl ⟨by omega, by omega, htake.trans ?_⟩)
    rw [shortFrame, hpay, BitVec.ofNat_toNat, BitVec.setWidth_eq, eb]
    rfl
  · cases e
  · obtain ⟨-, -, -, -, -, hpay, htake⟩ := body 3 _ e.symm
    have hlt := (be16 a l).isLt
    refine done 3 _ e.symm (.inr ⟨by omega, by omega, htake.trans ?_⟩)
    rw [longFrame, hpay, BitVec.ofNat_toNat, BitVec.setWidth_eq, longHeader, highByte_be16, lowByte_be16, eb]
    rfl
  · cases e

/-! #### One flipped bit -/

theorem xor_one_bit_ne (b : Byte) {k : Nat} (hk : k < 8) : b ^^^ (1#8 <<< k) ≠ b := by
  have hbit : 1#8 <<< k ≠ 0 := by interval_cases k <;> decide
  intro h
  exact hbit ((BitVec.xor_right_inj b).1 (h.trans BitVec.xor_zero.symm))

/-- One changed byte changes the CRC (40_crc.md, at R64). -/
theorem crc16_set_ne {p : Bytes} {i : Nat} (hi : i < p.length) {x : Byte} (hx : x ≠ byteAt p i) :
    crc16 (p.set i x) ≠ crc16 p := by
  have hbyte : byteAt p i = p[i] := List.getD_eq_getElem _ _ hi
  have hsplit : p = p.take i ++ p[i] :: p.drop (i + 1) := by simp
  have hset : p.set i x = p.take i ++ x :: p.drop (i + 1) := List.set_eq_take_append_cons_drop.trans (if_pos hi)
  intro h
  rw [crc16_eq_crcFrom, crc16_eq_crcFrom, hset, crcFrom_append, crcFrom_cons] at h
  conv at h => rhs; rw [hsplit, crcFrom_append, crcFrom_cons]
  exact hx ((crcByte_injective_right _ (crcFrom_injective _ h)).trans hbyte.symm)

/-- One flipped bit of payload or CRC field leaves a payload and a field that do not belong together. -/
theorem tailWith_flip {p : Bytes} {i k : Nat} (hi : i < p.length + 2) (hk : k < 8) :
    ∃ q v, (frameTail p).set i (byteAt (frameTail p) i ^^^ (1#8 <<< k)) = tailWith q v ∧ q.length = p.length ∧
      crc16 q ≠ v := by
  rcases Nat.lt_or_ge i p.length with hpay | hfield
  · refine ⟨p.set i (byteAt p i ^^^ (1#8 <<< k)), crc16 p, ?_, List.length_set, crc16_set_ne hpay (xor_one_bit_ne _ hk)⟩
    rw [frameTail, byteAt_append_left _ hpay, List.set_append_left _ _ hpay, tailWith]
  · have hset : ∀ x, (frameTail p).set i x = p ++ [highByte (crc16 p), lowByte (crc16 p), Config.terminator].set (i - p.length) x :=
      fun x => List.set_append_right _ _ hfield
    have hat : byteAt (frameTail p) i = byteAt [highByte (crc16 p), lowByte (crc16 p), Config.terminator] (i - p.length) := by
      conv_lhs => rw [frameTail, show i = p.length + (i - p.length) by omega, byteAt_append_right]
    rw [hset, hat]
    obtain hj | hj : i - p.length = 0 ∨ i - p.length = 1 := by omega
    · refine ⟨p, be16 (highByte (crc16 p) ^^^ (1#8 <<< k)) (lowByte (crc16 p)), ?_, rfl, fun h => ?_⟩
      · rw [hj, tailWith, highByte_be16, lowByte_be16]
        rfl
      · exact xor_one_bit_ne _ hk ((highByte_be16 _ _).symm.trans (congrArg highByte h.symm))
    · refine ⟨p, be16 (highByte (crc16 p)) (lowByte (crc16 p) ^^^ (1#8 <<< k)), ?_, rfl, fun h => ?_⟩
      · rw [hj, tailWith, highByte_be16, lowByte_be16]
        rfl
      · exact xor_one_bit_ne _ hk ((lowByte_be16 _ _).symm.trans (congrArg lowByte h.symm))

/-- Settles O10: the header and the terminator stay, so the damaged candidate gets as far as the CRC, which no longer
belongs to the payload. -/
theorem singleBitErrorInPayloadOrCrcIsRejected : Obligations.SingleBitErrorInPayloadOrCrcIsRejected := by
  intro n r p rest j k hn hk
  refine ⟨fun h1 h255 hlo hhi => ⟨?_, ?_⟩, fun h255 hmax hlo hhi => ⟨?_, ?_⟩⟩
  · exact (scanBytes_short_tailWith r rest (crc16 p) hn h1 h255).trans (if_pos rfl)
  · obtain ⟨i, rfl⟩ := Nat.exists_eq_add_of_le' hlo
    obtain ⟨q, v, hflip, hlen, hne⟩ := tailWith_flip (p := p) (i := i) (by omega) hk
    have hframe : (shortFrame p).set (i + 2) (byteAt (shortFrame p) (i + 2) ^^^ (1#8 <<< k)) =
        shortHeader (BitVec.ofNat 8 q.length) ++ tailWith q v := by
      rw [← hflip, hlen]
      rfl
    rw [hframe, scanBytes_short_tailWith r rest v (by omega) (by omega) (by omega), if_neg hne]
  · exact (scanBytes_long_tailWith r rest (crc16 p) hn h255 hmax).trans (if_pos rfl)
  · obtain ⟨i, rfl⟩ := Nat.exists_eq_add_of_le' hlo
    obtain ⟨q, v, hflip, hlen, hne⟩ := tailWith_flip (p := p) (i := i) (by omega) hk
    have hframe : (longFrame p).set (i + 3) (byteAt (longFrame p) (i + 3) ^^^ (1#8 <<< k)) =
        longHeader (BitVec.ofNat 16 q.length) ++ tailWith q v := by
      rw [← hflip, hlen]
      rfl
    rw [hframe, scanBytes_long_tailWith r rest v (by omega) (by omega) (by omega), if_neg hne]

end Sys2Proof.Machine

/-! ### The selector classes: one iteration of the scan loop (42_ingestion.md R85 to R90) -/

namespace Sys2Proof.Machine

/-! #### Where an iteration leaves the state -/

section
variable (s : State) (r k : Nat)

/-- An iteration that goes on changes the cursors and the loop count alone, and `write_idx` only to 0 with `read_idx`, as
the loop ends. -/
theorem loopAt_frame :
    s.loopAt r = { s with readIdx := (s.loopAt r).readIdx, writeIdx := (s.loopAt r).writeIdx,
                          scanLeft := (s.loopAt r).scanLeft } ∧
    ((s.loopAt r).writeIdx = s.writeIdx ∨
      ((s.loopAt r).writeIdx = 0 ∧ (s.loopAt r).readIdx = 0 ∧ (s.loopAt r).scanLeft = 0)) := by
  unfold State.loopAt
  split_ifs <;> simp

/-- An iteration that waits changes the hint besides. -/
theorem waitingFor_frame :
    s.waitingFor k = { s with readIdx := (s.waitingFor k).readIdx, writeIdx := (s.waitingFor k).writeIdx,
                              scanLeft := (s.waitingFor k).scanLeft, bytesLeft := (s.waitingFor k).bytesLeft } ∧
    ((s.waitingFor k).writeIdx = s.writeIdx ∨
      ((s.waitingFor k).writeIdx = 0 ∧ (s.waitingFor k).readIdx = 0 ∧ (s.waitingFor k).scanLeft = 0)) := by
  unfold State.waitingFor
  split_ifs <;> simp

@[simp] theorem loopAt_cap : (s.loopAt r).cap = s.cap := (congrArg State.cap (loopAt_frame s r).1).trans rfl
@[simp] theorem loopAt_buf : (s.loopAt r).buf = s.buf := (congrArg State.buf (loopAt_frame s r).1).trans rfl
@[simp] theorem loopAt_bytesLeft : (s.loopAt r).bytesLeft = s.bytesLeft := (congrArg State.bytesLeft (loopAt_frame s r).1).trans rfl
@[simp] theorem loopAt_port : (s.loopAt r).port = s.port := (congrArg State.port (loopAt_frame s r).1).trans rfl
@[simp] theorem loopAt_sink : (s.loopAt r).sink = s.sink := (congrArg State.sink (loopAt_frame s r).1).trans rfl
@[simp] theorem loopAt_result : (s.loopAt r).result = s.result := (congrArg State.result (loopAt_frame s r).1).trans rfl
@[simp] theorem waitingFor_cap : (s.waitingFor k).cap = s.cap := (congrArg State.cap (waitingFor_frame s k).1).trans rfl
@[simp] theorem waitingFor_buf : (s.waitingFor k).buf = s.buf := (congrArg State.buf (waitingFor_frame s k).1).trans rfl
@[simp] theorem waitingFor_port : (s.waitingFor k).port = s.port := (congrArg State.port (waitingFor_frame s k).1).trans rfl
@[simp] theorem waitingFor_sink : (s.waitingFor k).sink = s.sink := (congrArg State.sink (waitingFor_frame s k).1).trans rfl
@[simp] theorem waitingFor_result : (s.waitingFor k).result = s.result := (congrArg State.result (waitingFor_frame s k).1).trans rfl

@[simp] theorem waitingFor_bytesLeft : (s.waitingFor k).bytesLeft = k := by
  unfold State.waitingFor
  split_ifs <;> rfl

@[simp] theorem waitingFor_scanLeft : (s.waitingFor k).scanLeft = 0 := by
  unfold State.waitingFor
  split_ifs <;> rfl

@[simp] theorem loopAt_scanLeft : (s.loopAt r).scanLeft = s.scanLeft - 1 := by
  unfold State.loopAt
  split_ifs
  · rfl
  · simp only; omega
  · simp only; omega

end

/-- NeedMoreBytes is answered by leaving the loop with the count in the hint (42_ingestion.md R86). -/
theorem finishScan_setHint (s : State) (k : Nat) : (s.setHint k).finishScan = s.waitingFor k := by
  unfold State.waitingFor
  rcases finishScan_cases (s.setHint k) with ⟨h, e⟩ | ⟨h, e⟩
  · rw [e, if_pos (by simpa using h)]
    rfl
  · rw [e, if_neg (by simpa using h)]
    rfl

theorem respond_needMoreBytes (k : Nat) (s : State) : respond (.needMoreBytes k) s = .next (s.waitingFor k) :=
  congrArg Host.Outcome.next (finishScan_setHint s k)

/-- The answers to an outcome, from any state: wait, give up one byte, or hand over a payload and pass the frame. -/
theorem respond_eq_next_cases {o : ScanOutcome} {s t : State} (h : respond o s = .next t) :
    (∃ k, o = .needMoreBytes k ∧ t = s.waitingFor k) ∨ (∃ c, o = .invalidData c ∧ t = s.loopAt (s.readIdx + 1)) ∨
    (∃ count lo hi p, o = .consumed count lo hi ∧ t = (s.emit p).loopAt (s.readIdx + count)) := by
  rcases respond_eq_next h with ⟨k, ho, rfl⟩ | ⟨c, ho, rfl⟩ | ⟨count, lo, hi, p, ho, -, rfl⟩
  · exact .inl ⟨k, ho, finishScan_setHint s k⟩
  · exact .inr (.inl ⟨c, ho, nextIteration_setCursors s _⟩)
  · exact .inr (.inr ⟨count, lo, hi, p, ho, nextIteration_setCursors (s.emit p) _⟩)

/-! #### Pending bytes -/

@[simp] theorem length_pendingBytes (s : State) : s.pendingBytes.length = s.pending := length_window _ _ _

/-- The pending bytes are what MemRead answers for them. -/
theorem memRead_pendingBytes {s : State} (h : s.Inv) : s.memRead s.readIdx s.pending = .ok s.pendingBytes := by
  obtain ⟨-, -, -, hrw, hwc, -⟩ := h
  exact memRead_eq_window (by unfold State.pending; omega)

/-- A range of the pending bytes, read by offset or by index. -/
theorem memRead_drop_take {s : State} (h : s.Inv) {a b : Nat} (hab : a ≤ b) (hb : b ≤ s.pending) :
    s.memRead (s.readIdx + a) (b - a) = .ok ((s.pendingBytes.drop a).take (b - a)) := by
  obtain ⟨-, -, -, hrw, hwc, -⟩ := h
  rw [memRead_eq_window (by unfold State.pending at hb; omega)]
  exact congrArg Except.ok (payloadOf_window s.byte (by omega)).symm

/-- Consumed, inside the pending bytes, is answered by handing over the payload and passing the frame (R88). -/
theorem respond_consumed {s : State} (h : s.Inv) {count a b : Nat} (hab : a ≤ b) (hb : b ≤ s.pending) :
    respond (.consumed count (s.readIdx + a) (s.readIdx + b)) s =
      .next ((s.emit ((s.pendingBytes.drop a).take (b - a))).loopAt (s.readIdx + count)) := by
  rw [respond, Nat.add_sub_add_left, memRead_drop_take h hab hb, orFault_ok]
  exact congrArg Host.Outcome.next (nextIteration_setCursors (s.emit _) _)

/-! #### The eleven classes have one meaning, each with its own judgement -/

/-- The judgement of a selector class (41_frame_scanner.md R65): by the length for SHORT and LONG, by the selector alone for
the others. -/
def judgeInstr (n r : Nat) (i : Instr) (bs : Bytes) : ScanOutcome :=
  match i with
  | .short len => judgeShort n r len bs
  | .long len => judgeLong n r len bs
  | _ => judgeBadSelector bs

theorem exec_eq_scanStep {i : Instr} (h : i.isOperation = false) (s : State) :
    exec i s = scanStep (judgeInstr s.cap s.readIdx i) s := by
  cases i <;> first | rfl | cases h

/-- The scanner judges a candidate by the class it decodes to. -/
theorem scanBytes_of_decode {bs : Bytes} {i : Instr} (n r : Nat) (h : decode bs = .instr i) :
    scanBytes n r bs = judgeInstr n r i bs := by
  rw [scanBytes, h]
  cases i <;> rfl

/-- Inside the invariant a selector class answers its judgement of the pending bytes. -/
theorem exec_eq_respond {s : State} (h : s.Inv) {i : Instr} (hi : i.isOperation = false) :
    exec i s = respond (judgeInstr s.cap s.readIdx i s.pendingBytes) s := by
  rw [exec_eq_scanStep hi, scanStep, guarded_of_none (domainRefusal_of_inv h), memRead_pendingBytes h, orFault_ok]

/-- A class that is rejected gives up one byte. -/
theorem exec_of_invalidData {s : State} (h : s.Inv) {i : Instr} {c : InvalidCause} (hi : i.isOperation = false)
    (hj : judgeInstr s.cap s.readIdx i s.pendingBytes = .invalidData c) :
    exec i s = .next (s.loopAt (s.readIdx + 1)) := by
  rw [exec_eq_respond h hi, hj, respond_invalidData]

/-- A class that asks for more leaves the loop. -/
theorem exec_of_needMoreBytes {s : State} (h : s.Inv) {i : Instr} {k : Nat} (hi : i.isOperation = false)
    (hj : judgeInstr s.cap s.readIdx i s.pendingBytes = .needMoreBytes k) : exec i s = .next (s.waitingFor k) := by
  rw [exec_eq_respond h hi, hj, respond_needMoreBytes]

/-- A class whose frame is whole hands its payload over, wherever in the buffer the frame lies. -/
theorem exec_of_isFrameOf {s : State} (h : s.Inv) {i : Instr} {p f rest : Bytes} (hf : IsFrameOf p f)
    (hdec : decode (f ++ rest) = .instr i) (hpend : s.pendingBytes = f ++ rest) :
    exec i s = .next ((s.emit p).loopAt (s.readIdx + f.length)) := by
  have hlen : s.pending = f.length + rest.length := by rw [← length_pendingBytes, hpend, List.length_append]
  have hcap : p.length ≤ s.cap := by
    obtain ⟨-, -, -, -, hwc, -⟩ := h
    obtain ⟨-, hpf, -⟩ := hf.length_bounds
    unfold State.pending at hlen
    omega
  obtain ⟨lo, hi, hscan, hpay⟩ := hf.scanBytes_eq hcap rest
  obtain ⟨-, -, -, -, -, hlohi, hhic⟩ := scanBytes_consumed_isFrameOf hscan
  rw [exec_eq_respond h (decode_isOperation hdec), hpend, ← scanBytes_of_decode _ _ hdec, scanBytes_shift, hscan,
    ScanOutcome.shift, respond_consumed h hlohi (by omega), hpend, hpay]

/-- Settles O16: the frame's header decodes to SHORT of the payload's length. -/
theorem shortFrameIsAccepted : Obligations.ShortFrameIsAccepted := by
  intro s p rest h h1 h255 hpend
  have hdec : decode (shortFrame p ++ rest) = .instr (.short (BitVec.ofNat 8 p.length)) := by
    rw [shortFrame, List.append_assoc, decode_shortHeader]
  rw [exec_of_isFrameOf h (.inl ⟨h1, h255, rfl⟩) hdec hpend, length_shortFrame]
  rfl

/-- Settles O17: the frame's header decodes to LONG of the payload's length. -/
theorem longFrameIsAccepted : Obligations.LongFrameIsAccepted := by
  intro s p rest h h255 hmax hpend
  have hdec : decode (longFrame p ++ rest) = .instr (.long (BitVec.ofNat 16 p.length)) := by
    rw [longFrame, List.append_assoc, decode_longHeader]
  rw [exec_of_isFrameOf h (.inr ⟨h255, hmax, rfl⟩) hdec hpend, length_longFrame]
  rfl

/-! #### Rejections -/

/-- SHORT with its header present: a zero length is rejected, any other goes on to S5. -/
theorem judgeShort_of_header {n r : Nat} {len : Byte} {bs : Bytes} (h : 2 ≤ bs.length) :
    judgeShort n r len bs = if len = 0 then .invalidData .zeroLength else judgeBody n r 2 len.toNat bs :=
  withHeader_of_le _ (by decide) h

/-- LONG with its header present: a length below 255 is rejected, any other goes on to S5. -/
theorem judgeLong_of_header {n r : Nat} {len : Half} {bs : Bytes} (h : 3 ≤ bs.length) :
    judgeLong n r len bs = if len.toNat < 255 then .invalidData .redundantLength else judgeBody n r 3 len.toNat bs :=
  withHeader_of_le _ (by decide) h

/-- The legal lengths of 30_encoding.md R47 pass S4. -/
theorem judgeShort_of_legal {n r : Nat} {len : Byte} {bs : Bytes} (h : 2 ≤ bs.length) (hlen : 1 ≤ len.toNat) :
    judgeShort n r len bs = judgeBody n r 2 len.toNat bs := by
  rw [judgeShort_of_header h, if_neg]
  rintro rfl
  exact absurd hlen (by decide)

theorem judgeLong_of_legal {n r : Nat} {len : Half} {bs : Bytes} (h : 3 ≤ bs.length) (hlen : 255 ≤ len.toNat) :
    judgeLong n r len bs = judgeBody n r 3 len.toNat bs := by
  rw [judgeLong_of_header h, if_neg (Nat.not_lt.2 hlen)]

/-- S5: a length above N is rejected. -/
theorem judgeBody_of_capacity_lt {n r hdr len : Nat} {bs : Bytes} (h : n < len) :
    judgeBody n r hdr len bs = .invalidData .exceedsCapacity := if_pos h

/-- Settles O18: the two short-cuts of S4, and S5 for both forms. -/
theorem illegalLengthIsRejected : Obligations.IllegalLengthIsRejected := by
  intro s h
  refine ⟨fun hp => ?_, fun len hp hcap => ?_, fun len hp hlow => ?_, fun len hp hcap => ?_⟩
  · have hj := judgeShort_of_header (n := s.cap) (r := s.readIdx) (len := 0) ((length_pendingBytes s).symm ▸ hp)
    exact exec_of_invalidData h rfl hj
  · have hj := judgeShort_of_legal (n := s.cap) (r := s.readIdx) (len := len) ((length_pendingBytes s).symm ▸ hp) (by omega)
    exact exec_of_invalidData h rfl (hj.trans (judgeBody_of_capacity_lt hcap))
  · have hj := judgeLong_of_header (n := s.cap) (r := s.readIdx) (len := len) ((length_pendingBytes s).symm ▸ hp)
    exact exec_of_invalidData h rfl (hj.trans (if_pos hlow))
  · have hj := judgeLong_of_header (n := s.cap) (r := s.readIdx) (len := len) ((length_pendingBytes s).symm ▸ hp)
    by_cases hlow : len.toNat < 255
    · exact exec_of_invalidData h rfl (hj.trans (if_pos hlow))
    · exact exec_of_invalidData h rfl (hj.trans ((if_neg hlow).trans (judgeBody_of_capacity_lt hcap)))

/-- S7 and S8 by buffer index: a wrong terminator or a CRC field that is not the payload's CRC is rejected. -/
theorem judgeBody_window_damaged {n r d hdr len : Nat} {buf : Nat → Byte} (hcap : len ≤ n) (hlen : totalLen hdr len ≤ d)
    (h : buf (r + hdr + len + 2) ≠ 0x03 ∨
      crc16 (window buf (r + hdr) len) ≠ be16 (buf (r + hdr + len)) (buf (r + hdr + len + 1))) :
    ∃ c, judgeBody n r hdr len (window buf r d) = .invalidData c := by
  have hT : r + totalLen hdr len - 1 = r + hdr + len + 2 := by unfold totalLen; omega
  have hbounds : hdr + len + 1 < d := by unfold totalLen at hlen; omega
  have hterm := terminatorOf_window (r := r) buf hlen
  have hpay := payloadOf_window (r := r) (hdr := hdr) (len := len) (d := d) buf (by omega)
  have hcrc : rxCrc hdr len (window buf r d) = be16 (buf (r + hdr + len)) (buf (r + hdr + len + 1)) := by
    rw [rxCrc, byteAt_window buf (by omega), byteAt_window buf hbounds]
    simp only [Nat.add_assoc]
  rw [hT] at hterm
  rcases judgeBody_cases n r hdr len (window buf r d) with ⟨hc, -⟩ | ⟨-, hl, -⟩ | ⟨-, -, -, e⟩ | ⟨-, -, -, -, e⟩ |
    ⟨-, -, ht, hv, -⟩
  · omega
  · rw [length_window] at hl
    omega
  · exact ⟨_, e⟩
  · exact ⟨_, e⟩
  · rw [hterm] at ht
    rw [hpay, hcrc] at hv
    exact (h.elim (fun hne => hne ht) fun hne => hne hv).elim

/-- Settles O19: a legal length passes S4 to S6, and S7 or S8 rejects. -/
theorem damagedFrameIsRejected : Obligations.DamagedFrameIsRejected := by
  intro s h
  refine ⟨fun len h1 hcap hp hbad => ?_, fun len h255 hcap hp hbad => ?_⟩
  · have hpres : 2 ≤ s.pendingBytes.length := by rw [length_pendingBytes]; omega
    have hT : totalLen 2 len.toNat ≤ s.pending := by unfold totalLen; omega
    rw [show s.readIdx + len.toNat + 4 = s.readIdx + 2 + len.toNat + 2 by omega,
      show s.readIdx + 3 + len.toNat = s.readIdx + 2 + len.toNat + 1 by omega] at hbad
    obtain ⟨c, hj⟩ := judgeBody_window_damaged (r := s.readIdx) (buf := s.byte) hcap hT hbad
    exact exec_of_invalidData h rfl ((judgeShort_of_legal hpres h1).trans hj)
  · have hpres : 3 ≤ s.pendingBytes.length := by rw [length_pendingBytes]; omega
    have hT : totalLen 3 len.toNat ≤ s.pending := by unfold totalLen; omega
    rw [show s.readIdx + len.toNat + 5 = s.readIdx + 3 + len.toNat + 2 by omega,
      show s.readIdx + 4 + len.toNat = s.readIdx + 3 + len.toNat + 1 by omega] at hbad
    obtain ⟨c, hj⟩ := judgeBody_window_damaged (r := s.readIdx) (buf := s.byte) hcap hT hbad
    exact exec_of_invalidData h rfl ((judgeLong_of_legal hpres h255).trans hj)

/-- Settles O21: the nine classes are one scan that judges the selector alone. -/
theorem invalidSelectorGivesUpOneByte : Obligations.InvalidSelectorGivesUpOneByte := by
  intro s h hp
  have hscan := scanStep_judgeBadSelector h hp
  exact ⟨hscan, fun _ => hscan, hscan, fun _ => hscan, fun _ => hscan, fun _ => hscan, fun _ => hscan, fun _ => hscan,
    fun _ => hscan⟩

/-! #### Waiting -/

/-- S3: a header that is not whole asks for what is missing of it. -/
theorem withHeader_of_lt {hdr : Nat} {bs : Bytes} {o : ScanOutcome} (h1 : 1 ≤ bs.length) (h : bs.length < hdr) :
    withHeader hdr bs o = .needMoreBytes (hdr - bs.length) := by
  rw [withHeader, if_neg (by omega), if_pos h]

/-- S6: a frame that is not whole asks for what is missing of it. -/
theorem judgeBody_of_lt {n r hdr len : Nat} {bs : Bytes} (hcap : len ≤ n) (h : bs.length < totalLen hdr len) :
    judgeBody n r hdr len bs = .needMoreBytes (totalLen hdr len - bs.length) := by
  rw [judgeBody, if_neg (Nat.not_lt.2 hcap), if_pos h]

/-- Settles O20: S3 and S6, for both forms. -/
theorem incompleteFrameWaitsForTheMissingBytes : Obligations.IncompleteFrameWaitsForTheMissingBytes := by
  intro s h
  have hlen := length_pendingBytes s
  refine ⟨fun len hp => ?_, fun len h1 hcap hp hlt => ?_, fun len hp => ?_, fun len h255 hcap hp hlt => ?_⟩
  · have hj : judgeShort s.cap s.readIdx len s.pendingBytes = .needMoreBytes (2 - s.pendingBytes.length) :=
      withHeader_of_lt (by omega) (by unfold shortHdr; omega)
    rw [hlen, hp] at hj
    exact exec_of_needMoreBytes h rfl hj
  · have hT : totalLen 2 len.toNat = len.toNat + 5 := totalLen_shortHdr _
    have hj := judgeBody_of_lt (r := s.readIdx) (bs := s.pendingBytes) (hdr := 2) hcap (by omega)
    rw [hT, hlen] at hj
    exact exec_of_needMoreBytes h rfl ((judgeShort_of_legal (by omega) h1).trans hj)
  · have hj : judgeLong s.cap s.readIdx len s.pendingBytes = .needMoreBytes (3 - s.pendingBytes.length) :=
      withHeader_of_lt (by omega) (by unfold longHdr; omega)
    rw [hlen] at hj
    exact exec_of_needMoreBytes h rfl hj
  · have hT : totalLen 3 len.toNat = len.toNat + 6 := totalLen_longHdr _
    have hj := judgeBody_of_lt (r := s.readIdx) (bs := s.pendingBytes) (hdr := 3) hcap (by omega)
    rw [hT, hlen] at hj
    exact exec_of_needMoreBytes h rfl ((judgeLong_of_legal (by omega) h255).trans hj)

end Sys2Proof.Machine

/-! ### What every instruction leaves alone, from any state (10_state.md R10, R13, R16) -/

namespace Sys2Proof.Machine

/-! #### An iteration of the scan loop, from any state -/

/-- What an iteration of the scan loop can make of `s`: it waits for `k` more bytes, gives up one byte, or hands over a
payload and passes a frame (42_ingestion.md R86 to R88). -/
def AnswerOf (s t : State) : Prop :=
  (∃ k, 1 ≤ k ∧ t = s.waitingFor k) ∨ t = s.loopAt (s.readIdx + 1) ∨
  ∃ count p, t = (s.emit p).loopAt (s.readIdx + count)

theorem answerOf_of_respond {o : ScanOutcome} {s t : State} (ho : ∀ k, o = .needMoreBytes k → 1 ≤ k)
    (h : respond o s = .next t) : AnswerOf s t := by
  rcases respond_eq_next_cases h with ⟨k, hk, rfl⟩ | ⟨c, -, rfl⟩ | ⟨count, lo, hi, p, -, rfl⟩
  · exact .inl ⟨k, ho k hk, rfl⟩
  · exact .inr (.inl rfl)
  · exact .inr (.inr ⟨count, p, rfl⟩)

/-- A header that is not whole lacks at least one byte. -/
theorem decode_needMore_pos {bs : Bytes} {k : Nat} (h : decode bs = .needMore k) : 1 ≤ k := by
  rcases decode_cases bs with ⟨-, hd⟩ | ⟨-, hd⟩ | ⟨-, hd⟩ | ⟨-, -, hd⟩ | ⟨l, rest, -, hd⟩ | ⟨a, l, rest, -, hd⟩ |
    ⟨sel, rest, -, -, -, hd⟩ <;> rw [hd] at h <;> cases h <;> omega

theorem withHeader_needMore_pos {hdr k : Nat} {bs : Bytes} {o : ScanOutcome} (ho : ∀ k, o = .needMoreBytes k → 1 ≤ k)
    (h : withHeader hdr bs o = .needMoreBytes k) : 1 ≤ k := by
  unfold withHeader at h
  split_ifs at h
  · cases h; omega
  · cases h; omega
  · exact ho k h

theorem judgeBody_needMore_pos {n r hdr len k : Nat} {bs : Bytes} (h : judgeBody n r hdr len bs = .needMoreBytes k) :
    1 ≤ k := by
  unfold judgeBody at h
  split_ifs at h
  cases h
  omega

/-- Whatever the bytes are, a class that waits asks for at least one byte. -/
theorem judgeInstr_needMore_pos {n r k : Nat} {i : Instr} {bs : Bytes} (h : judgeInstr n r i bs = .needMoreBytes k) :
    1 ≤ k := by
  have hbad : judgeBadSelector bs = .needMoreBytes k → 1 ≤ k := withHeader_needMore_pos fun _ h => by cases h
  cases i with
  | short len =>
    refine withHeader_needMore_pos (fun j hj => ?_) h
    split_ifs at hj
    exact judgeBody_needMore_pos hj
  | long len =>
    refine withHeader_needMore_pos (fun j hj => ?_) h
    split_ifs at hj
    exact judgeBody_needMore_pos hj
  | _ => exact hbad h

/-- A selector class, if it answers a next state. -/
theorem answerOf_of_exec {i : Instr} {s t : State} (hi : i.isOperation = false) (h : exec i s = .next t) :
    AnswerOf s t := by
  rw [exec_eq_scanStep hi] at h
  obtain ⟨-, bs, -, hresp⟩ := scanStep_eq_next h
  exact answerOf_of_respond (fun _ => judgeInstr_needMore_pos) hresp

/-- An iteration of the loop, if it answers a next state. -/
theorem answerOf_of_scanOnce {s t : State} (h : scanOnce s = .next t) : AnswerOf s t := by
  rw [scanOnce_eq_exec] at h
  obtain ⟨-, ⟨i, hf, hr⟩ | ⟨k, hf, rfl⟩⟩ := scanOnceWith_eq_next h
  · obtain ⟨bs, -, hdec⟩ := (fetch_eq_ok s _).1 hf
    exact answerOf_of_exec (decode_isOperation hdec) hr
  · obtain ⟨bs, -, hdec⟩ := (fetch_eq_ok s _).1 hf
    exact .inl ⟨k, decode_needMore_pos hdec, finishScan_setHint s k⟩

theorem AnswerOf.cap_eq {s t : State} (h : AnswerOf s t) : t.cap = s.cap := by
  rcases h with ⟨k, -, rfl⟩ | rfl | ⟨count, p, rfl⟩ <;> simp

theorem AnswerOf.buf_eq {s t : State} (h : AnswerOf s t) : t.buf = s.buf := by
  rcases h with ⟨k, -, rfl⟩ | rfl | ⟨count, p, rfl⟩ <;> simp

theorem AnswerOf.port_eq {s t : State} (h : AnswerOf s t) : t.port = s.port := by
  rcases h with ⟨k, -, rfl⟩ | rfl | ⟨count, p, rfl⟩ <;> simp

theorem AnswerOf.sink_cases {s t : State} (h : AnswerOf s t) : t.sink = s.sink ∨ ∃ p, t.sink = s.sink ++ [p] := by
  rcases h with ⟨k, -, rfl⟩ | rfl | ⟨count, p, rfl⟩
  · exact .inl (waitingFor_sink s k)
  · exact .inl (loopAt_sink s _)
  · exact .inr ⟨p, loopAt_sink (s.emit p) _⟩

theorem AnswerOf.bytesLeft_pos {s t : State} (h : AnswerOf s t) (hs : 0 < s.bytesLeft) : 0 < t.bytesLeft := by
  rcases h with ⟨k, hk, rfl⟩ | rfl | ⟨count, p, rfl⟩
  · rw [waitingFor_bytesLeft]; exact hk
  · rw [loopAt_bytesLeft]; exact hs
  · rw [loopAt_bytesLeft]; exact hs

/-- Settles O50: the three answers touch only the fields named. -/
theorem selectorsLeaveTheRestAlone : Obligations.SelectorsLeaveTheRestAlone := by
  intro i s t hi h
  have hanswer := answerOf_of_exec hi h
  refine ⟨?_, ?_, hanswer.sink_cases⟩
  · rcases hanswer with ⟨k, -, rfl⟩ | rfl | ⟨count, p, rfl⟩
    · unfold State.waitingFor
      split_ifs <;> rfl
    · unfold State.loopAt
      split_ifs <;> rfl
    · unfold State.loopAt
      split_ifs <;> rfl
  · rcases hanswer with ⟨k, -, rfl⟩ | rfl | ⟨count, p, rfl⟩
    · exact (waitingFor_frame s k).2
    · exact (loopAt_frame s _).2
    · exact (loopAt_frame (s.emit p) _).2

/-! #### EAT_BYTE and the other operations, from any state -/

/-- E1 to E3 change the buffer and the cursors alone. -/
theorem prepare_frame {s u : State} {b : Byte} (h : s.prepare b = .ok u) :
    u = { s with buf := u.buf, readIdx := u.readIdx, writeIdx := u.writeIdx } := by
  obtain ⟨c, hc, hu⟩ := (prepare_eq_ok s u b).1 h
  obtain ⟨-, rfl⟩ := (append_eq_ok c u b).1 hu
  have hd : s.overflowDiscard = { s with readIdx := s.overflowDiscard.readIdx, writeIdx := s.overflowDiscard.writeIdx } := by
    unfold State.overflowDiscard
    split_ifs <;> rfl
  have hc' : c = { s.overflowDiscard with buf := c.buf, readIdx := c.readIdx, writeIdx := c.writeIdx } := by
    rcases compact_cases hc with ⟨-, rfl⟩ | ⟨-, bs, -, e, -⟩
    · rfl
    · rw [e]; rfl
  rw [hd] at hc'
  rw [hc']
  rfl

/-- What E1 to E3, the hint skip and every iteration of the loop keep, EAT_BYTE keeps. -/
theorem exec_eatByte_keeps {P : State → Prop} {s t : State} {b : Byte} (h : exec (.eatByte b) s = .next t)
    (hprepared : ∀ buf r w, P { s with buf := buf, readIdx := r, writeIdx := w, result := none })
    (hscan : ∀ u k, P u → P (u.setScan k)) (hskip : ∀ u, P u → 1 < u.bytesLeft → P (u.setHint (u.bytesLeft - 1)))
    (hstep : ∀ u v, P u → AnswerOf u v → P v) : P t := by
  obtain ⟨-, -, u, hu, hrun⟩ := eatByteWith_eq_next h
  have hPu : P u := prepare_frame hu ▸ hprepared u.buf u.readIdx u.writeIdx
  rcases hrun with ⟨-, hhint, rfl⟩ | ⟨-, hloop⟩
  · exact hskip u hPu hhint
  · exact runScan_keeps (fun u v hPu huv => hstep u v hPu (answerOf_of_scanOnce huv)) _ _ _ (hscan u _ hPu) hloop

/-- DECODE_FRAME, if it answers a next state, has changed at most the hint, to at least 1, and the returned value. -/
theorem exec_decodeFrame_frame {d : Nat} {s t : State} (h : exec (.decodeFrame d) s = .next t) :
    t = { s with bytesLeft := t.bytesLeft, result := t.result } ∧ (0 < s.bytesLeft → 0 < t.bytesLeft) := by
  obtain ⟨hframe, hhint⟩ := decodeFrameWritesOnlyTheHint s t d h
  refine ⟨hframe, fun hpos => ?_⟩
  rcases hhint with ⟨k, hk, -, e⟩ | ⟨c, -, e⟩ | ⟨count, lo, hi, -, e⟩ <;> omega

/-- COMMIT_FRAME, if it answers a next state, has changed the returned value alone. -/
theorem exec_commitFrame_frame {p dest : Bytes} {n : Nat} {s t : State} (h : exec (.commitFrame p dest n) s = .next t) :
    t = { s with result := t.result } := by
  obtain ⟨-, rfl⟩ := execCommitFrame_eq_next h
  rfl

/-- Settles O49: CRC16 and SIZE_HINT set the returned value outright, COMMIT_FRAME does where it answers. -/
theorem pureOperationsLeaveTheDecoderAlone : Obligations.PureOperationsLeaveTheDecoderAlone := by
  rintro i s t h (⟨bs, rfl⟩ | ⟨f, rfl⟩ | ⟨p, d, n, rfl⟩)
  · cases h; rfl
  · cases h; rfl
  · exact exec_commitFrame_frame h

/-- An instruction other than EAT_BYTE and RESET, if it answers a next state: N, the buffer and the offered operations stay,
at most one payload is added, and a hint above 0 stays above 0. -/
theorem exec_frame {i : Instr} {s t : State} (h : exec i s = .next t) (heat : ∀ b, i ≠ .eatByte b) (hreset : i ≠ .reset) :
    t.cap = s.cap ∧ t.buf = s.buf ∧ (t.sink = s.sink ∨ ∃ p, t.sink = s.sink ++ [p]) ∧
      (0 < s.bytesLeft → 0 < t.bytesLeft) := by
  have hpure : t = { s with result := t.result } → t.cap = s.cap ∧ t.buf = s.buf ∧
      (t.sink = s.sink ∨ ∃ p, t.sink = s.sink ++ [p]) ∧ (0 < s.bytesLeft → 0 < t.bytesLeft) := by
    intro e
    rw [e]
    exact ⟨rfl, rfl, .inl rfl, id⟩
  cases hi : i.isOperation with
  | false =>
    have hanswer := answerOf_of_exec hi h
    exact ⟨hanswer.cap_eq, hanswer.buf_eq, hanswer.sink_cases, hanswer.bytesLeft_pos⟩
  | true =>
    cases i with
    | reset => exact absurd rfl hreset
    | eatByte b => exact absurd rfl (heat b)
    | decodeFrame d =>
      obtain ⟨e, hpos⟩ := exec_decodeFrame_frame h
      exact ⟨e ▸ rfl, e ▸ rfl, .inl (e ▸ rfl), hpos⟩
    | crc16 bs => exact hpure (pureOperationsLeaveTheDecoderAlone _ s t h (.inl ⟨bs, rfl⟩))
    | sizeHint f => exact hpure (pureOperationsLeaveTheDecoderAlone _ s t h (.inr (.inl ⟨f, rfl⟩)))
    | commitFrame p dest n => exact hpure (exec_commitFrame_frame h)
    | _ => cases hi

/-- A byte reads the same in two states of one N and one buffer. -/
theorem readByte_congr {s t : State} (hcap : t.cap = s.cap) (hbuf : t.buf = s.buf) (i : Nat) :
    t.readByte i = s.readByte i := by
  rw [State.readByte, State.readByte, hcap, hbuf]

/-- Settles O42: RESET is these assignments. -/
theorem resetClearsTheThreeRegisters : Obligations.ResetClearsTheThreeRegisters := fun _ => rfl

/-- Settles O48: RESET does not name the buffer, and the rest is `exec_frame`. -/
theorem onlyEatByteWritesTheBuffer : Obligations.OnlyEatByteWritesTheBuffer := by
  intro i s t h heat
  have hkeep : t.cap = s.cap ∧ t.buf = s.buf := by
    by_cases hreset : i = .reset
    · subst hreset
      cases h
      exact ⟨rfl, rfl⟩
    · obtain ⟨hcap, hbuf, -⟩ := exec_frame h heat hreset
      exact ⟨hcap, hbuf⟩
  exact ⟨hkeep.2, readByte_congr hkeep.1 hkeep.2⟩

/-- Settles O52: EAT_BYTE's skip needs a hint above 1, every iteration that writes the hint asks for at least one byte, and
the rest is `exec_frame`. -/
theorem hintNeverReturnsToZero : Obligations.HintNeverReturnsToZero := by
  intro i s t h hreset hpos
  by_cases heat : ∃ b, i = .eatByte b
  · obtain ⟨b, rfl⟩ := heat
    refine exec_eatByte_keeps (P := fun u => 0 < u.bytesLeft) h (fun _ _ _ => hpos) (fun _ _ hu => hu) ?_
      fun u v hu huv => huv.bytesLeft_pos hu
    intro u _ hhint
    rw [State.setHint_bytesLeft]
    omega
  · obtain ⟨-, -, -, hkeep⟩ := exec_frame h (fun b hb => heat ⟨b, hb⟩) hreset
    exact hkeep hpos

/-! #### The step, from any state -/

/-- `t` has the capacity of `s`, and the payloads handed over in `s` and perhaps more. -/
def KeepsSink (s t : State) : Prop := t.cap = s.cap ∧ ∃ ps, t.sink = s.sink ++ ps

theorem KeepsSink.refl (s : State) : KeepsSink s s := ⟨rfl, [], (List.append_nil _).symm⟩

theorem KeepsSink.of_sink_cases {s t u : State} (h : KeepsSink s t) (hcap : u.cap = t.cap)
    (hsink : u.sink = t.sink ∨ ∃ p, u.sink = t.sink ++ [p]) : KeepsSink s u := by
  obtain ⟨hc, ps, hps⟩ := h
  rcases hsink with e | ⟨p, e⟩
  · exact ⟨hcap.trans hc, ps, e.trans hps⟩
  · exact ⟨hcap.trans hc, ps ++ [p], by rw [e, hps, List.append_assoc]⟩

/-- Every instruction keeps N and the payloads handed over. -/
theorem keepsSink_of_exec {i : Instr} {s t : State} (h : exec i s = .next t) : KeepsSink s t := by
  by_cases hreset : i = .reset
  · subst hreset
    cases h
    exact KeepsSink.refl s
  by_cases heat : ∃ b, i = .eatByte b
  · obtain ⟨b, rfl⟩ := heat
    exact exec_eatByte_keeps (P := KeepsSink s) h (fun _ _ _ => KeepsSink.refl s) (fun _ _ hu => hu) (fun _ hu _ => hu)
      fun u v hu huv => hu.of_sink_cases huv.cap_eq huv.sink_cases
  · obtain ⟨hcap, -, hsink, -⟩ := exec_frame h (fun b hb => heat ⟨b, hb⟩) hreset
    exact (KeepsSink.refl s).of_sink_cases hcap hsink

/-- Settles O51, by what a step can be: an iteration, the oldest operation, or idling. -/
theorem capacityAndHandedOverPayloadsStay : Obligations.CapacityAndHandedOverPayloadsStay := by
  intro s t h
  rcases step_eq_next h with ⟨-, hscan⟩ | ⟨-, op, ops, -, hop⟩ | ⟨-, -, rfl⟩
  · have hanswer := answerOf_of_scanOnce ((scanOnce_eq_exec s).trans hscan)
    exact (KeepsSink.refl s).of_sink_cases hanswer.cap_eq hanswer.sink_cases
  · have hkeep : KeepsSink (s.setPort ops) t := keepsSink_of_exec hop
    exact hkeep
  · exact KeepsSink.refl t

/-- Settles O56: inside the invariant an iteration is `exec` of the fetched header, or the answer to what is missing of it. -/
theorem stepRunsTheFetchedInstruction : Obligations.StepRunsTheFetchedInstruction := by
  intro s h hs
  refine ⟨fun i hf => step_eq_exec_of_fetch h hs hf, fun k hf => ?_⟩
  rw [step, stepWith, if_pos hs, scanOnceWith, guarded_of_none (domainRefusal_of_inv h), hf, orFault_ok]
  exact respond_needMoreBytes k s

/-- Settles O57, by the two forms of the queue. -/
theorem stepTakesTheOldestOperation : Obligations.StepTakesTheOldestOperation := by
  intro s hs
  refine ⟨fun op ops hport => ?_, fun hport => ?_⟩
  · rw [step, stepWith, if_neg (not_not.2 hs), hport]
    rfl
  · rw [step, stepWith, if_neg (not_not.2 hs), hport]

/-! #### Refusals (93_implementation_defined.md U1, U6, U10, U11) -/

theorem guarded_of_some {s : State} {r : Refusal} (k : Result) (h : s.domainRefusal = some r) :
    guarded s k = .refused r := by
  rw [guarded, h]

theorem domainRefusal_of_illegal {s : State} (h : capacityLegal s.cap = false) :
    s.domainRefusal = some .capacityOutOfRange := by
  rw [State.domainRefusal, h]
  rfl

theorem domainRefusal_of_broken {s : State} (h : capacityLegal s.cap = true)
    (hc : s.writeIdx < s.readIdx ∨ s.cap < s.writeIdx) : s.domainRefusal = some .brokenCursors := by
  rw [State.domainRefusal, h, if_neg (by simp), if_pos (by simpa using hc)]

/-- Outside the domain every decoder operation at rest and every selector class is refused by the domain's name. -/
theorem exec_of_domainRefusal {s : State} {r : Refusal} (h : s.domainRefusal = some r) :
    (∀ b, s.scanLeft = 0 → exec (.eatByte b) s = .refused r) ∧ (∀ d, exec (.decodeFrame d) s = .refused r) ∧
    ∀ i : Instr, i.isOperation = false → exec i s = .refused r := by
  refine ⟨fun b hs => ?_, fun d => guarded_of_some _ h, fun i hi => ?_⟩
  · exact (if_neg (not_not.2 hs)).trans (guarded_of_some _ h)
  · rw [exec_eq_scanStep hi]
    exact guarded_of_some _ h

/-- Settles O59: U6 and U11 are `exec_of_domainRefusal`; U1, U10 and COMMIT_FRAME's operand have a test of their own. -/
theorem callsOutsideTheDomainAreRefused : Obligations.CallsOutsideTheDomainAreRefused := by
  intro s
  have illegal := fun hc => exec_of_domainRefusal (domainRefusal_of_illegal (s := s) hc)
  have broken := fun hc hb => exec_of_domainRefusal (domainRefusal_of_broken (s := s) hc hb)
  refine ⟨fun b hs => if_pos hs, fun d h hd => ?_, fun p dest n hn => if_neg (Bool.eq_false_iff.1 hn),
    fun b hs hc => (illegal hc).1 b hs, fun b hs hc hb => (broken hc hb).1 b hs, fun d hc => (illegal hc).2.1 d,
    fun d hc hb => (broken hc hb).2.1 d, fun i hi hc => (illegal hc).2.2 i hi, fun i hi hc hb => (broken hc hb).2.2 i hi⟩
  exact (guarded_of_none (domainRefusal_of_inv h)).trans (if_pos hd)

end Sys2Proof.Machine

/-! ### EAT_BYTE's preparation, E1 to E3 (42_ingestion.md R81 to R83, 20_memory.md R32) -/

namespace Sys2Proof.Machine

/-! #### The invariant's parts -/

theorem cursors_of_inv {s : State} (h : s.Inv) : s.readIdx ≤ s.writeIdx ∧ s.writeIdx ≤ s.cap := by
  obtain ⟨-, -, -, hrw, hwc, -⟩ := h
  exact ⟨hrw, hwc⟩

theorem cap_pos_of_legal {n : Nat} (h : capacityLegal n = true) : 1 ≤ n ∧ n ≤ 65535 := by
  simp only [capacityLegal, Bool.and_eq_true, decide_eq_true_eq] at h
  exact h

theorem cap_pos_of_inv {s : State} (h : s.Inv) : 1 ≤ s.cap := by
  obtain ⟨-, -, hcap, -⟩ := h
  exact (cap_pos_of_legal hcap).1

/-- At rest an empty buffer is empty at index 0. -/
theorem writeIdx_of_atRest {s : State} (h : s.AtRest) (hp : s.pending = 0) : s.readIdx = 0 ∧ s.writeIdx = 0 := by
  obtain ⟨⟨-, -, -, hrw, -, hrest, -⟩, hscan⟩ := h
  unfold State.pending at hp
  have hw := hrest hscan (by omega)
  omega

/-! #### The reset state and the placed word -/

/-- Settles O55: no field of a reset state but the buffer and N is other than 0 or empty. -/
theorem resetStateHasTheInvariant : Obligations.ResetStateHasTheInvariant := by
  have resetWith_atRest : ∀ n m, capacityLegal n = true → Memory.wf m = true → (∀ c ∈ m, c.1 < n) →
      (State.resetWith n m).AtRest := by
    intro n m hn hw hm
    exact ⟨⟨hw, hm, hn, Nat.le_refl _, Nat.zero_le _, fun _ _ => rfl, fun h => absurd rfl h, Nat.zero_le _⟩, rfl⟩
  refine ⟨fun n m hn hw hm => ⟨resetWith_atRest n m hn hw hm, rfl, rfl, rfl, rfl, ?_⟩, rfl, ?_, ?_⟩
  · exact fun i hi => (readByte_eq_ok _ i _).2 ⟨hi, rfl⟩
  · exact resetWith_atRest 16 [] rfl rfl fun c hc => by cases hc
  · exact fun i hi => (readByte_eq_ok _ i _).2 ⟨hi, rfl⟩

/-- The reset state of a legal N is at rest. -/
theorem resetOf_atRest {n : Nat} (hn : capacityLegal n = true) : (State.resetOf n).AtRest :=
  (resetStateHasTheInvariant.1 n [] hn rfl fun c hc => by cases hc).1

/-- A candidate of at least one byte, placed where there is room for it, keeps the invariant. -/
theorem withCandidate_inv {s : State} {bs : Bytes} (h : s.Inv) (h1 : 1 ≤ bs.length) (hroom : s.readIdx + bs.length ≤ s.cap) :
    (s.withCandidate bs).Inv := by
  obtain ⟨hw, hm, hcap, hrw, hwc, -, -, hhint⟩ := h
  have hpend : (s.withCandidate bs).pending = max s.writeIdx (s.readIdx + bs.length) - s.readIdx := rfl
  have hscan : (s.withCandidate bs).scanLeft = (s.withCandidate bs).pending := rfl
  refine ⟨wf_bufFill _ _ _ hw, fun c hc => ?_, hcap, ?_, max_le hwc hroom, fun h0 => ?_, fun _ => hscan.ge, hhint⟩
  · rcases mem_bufFill _ _ _ c hc with hc | hc
    · exact Nat.lt_of_lt_of_le hc.2 hroom
    · exact hm c hc
  · exact hrw.trans (Nat.le_max_left _ _)
  · omega

/-- A placed candidate is what MemRead reads at `read_idx`. -/
theorem memRead_withCandidate {s : State} {bs : Bytes} (hroom : s.readIdx + bs.length ≤ s.cap) :
    (s.withCandidate bs).memRead s.readIdx bs.length = .ok bs := by
  rw [memRead_eq_window (s := s.withCandidate bs) hroom]
  congr 1
  apply List.ext_getElem (length_window _ _ _)
  intro i hi hi'
  rw [length_window] at hi
  simp [window, State.byte, State.withCandidate, bufGet_bufFill, hi]

/-- Settles O58: the three bytes of the table word are pending at `read_idx`, so they are what is fetched. -/
theorem placedWordRunsNext : Obligations.PlacedWordRunsNext := by
  intro s nbits w i h hroom hdec
  have hlen : (tableWordBytes nbits w).length = 3 := rfl
  have hinv : (s.withFetchWord nbits w).Inv := withCandidate_inv h (by omega) (by omega)
  have hpend : 3 ≤ (s.withFetchWord nbits w).pending := by
    change 3 ≤ max s.writeIdx (s.readIdx + 3) - s.readIdx
    omega
  have hscan : (s.withFetchWord nbits w).scanLeft = (s.withFetchWord nbits w).pending := rfl
  have hdecode : decode (tableWordBytes nbits w) = .instr i := by
    unfold decodeTableWord at hdec
    split at hdec
    · cases hdec
      assumption
    · cases hdec
  have hread : (s.withFetchWord nbits w).memRead s.readIdx 3 = .ok (tableWordBytes nbits w) :=
    memRead_withCandidate (by omega)
  refine step_eq_exec_of_fetch hinv (by omega) ((fetch_eq_ok _ _).2 ⟨_, ?_, hdecode⟩)
  rw [Nat.min_eq_left (show maxHeader ≤ _ from hpend)]
  exact hread

/-! #### MemWrite and E2 as values -/

/-- MemWrite inside the buffer lists the bytes one after the other. -/
theorem memWrite_eq_bufFill {s : State} {i : Nat} {bs : Bytes} (h : i + bs.length ≤ s.cap) :
    s.memWrite i bs = .ok (s.setBuf (bufFill s.buf i bs)) := by
  induction bs generalizing s i with
  | nil => rfl
  | cons b bs ih =>
    rw [List.length_cons] at h
    have hwrite := (writeByte_eq_ok s _ i b).2 ⟨by omega, rfl⟩
    have hrest := ih (s := s.setBuf (bufSet s.buf i b)) (i := i + 1) (by rw [State.setBuf_cap]; omega)
    rw [State.memWrite, hwrite]
    exact hrest

/-- The state after E2, where E2 does not fault (`compact_eq`). -/
def State.compacted (s : State) : State :=
  if s.compactionDue then (s.setBuf (bufFill s.buf 0 s.pendingBytes)).setCursors 0 s.pending else s

/-- With ordered cursors inside the buffer E2 never faults. -/
theorem compact_eq {s : State} (hrw : s.readIdx ≤ s.writeIdx) (hwc : s.writeIdx ≤ s.cap) :
    s.compact = .ok s.compacted := by
  have hread : s.memRead s.readIdx s.pending = .ok s.pendingBytes := memRead_eq_window (by unfold State.pending; omega)
  have hwrite : s.memWrite 0 s.pendingBytes = .ok (s.setBuf (bufFill s.buf 0 s.pendingBytes)) :=
    memWrite_eq_bufFill (by rw [length_pendingBytes]; unfold State.pending; omega)
  unfold State.compact State.compacted
  split_ifs
  · rw [hread]
    simp only [hwrite]
  · rfl

/-- The state after E3, where E3 does not fault (`append_eq_ok`). -/
def State.appended (s : State) (b : Byte) : State :=
  (s.setBuf (bufSet s.buf s.writeIdx b)).setCursors s.readIdx (s.writeIdx + 1)

/-- The state after E1 and E2. -/
def State.madeRoom (s : State) : State := s.overflowDiscard.compacted

theorem compact_overflowDiscard_eq {s : State} (hrw : s.readIdx ≤ s.writeIdx) (hwc : s.writeIdx ≤ s.cap) :
    s.overflowDiscard.compact = .ok s.madeRoom := by
  rcases overflowDiscard_cases s with ⟨-, e⟩ | ⟨-, e⟩ <;> rw [State.madeRoom, e]
  · exact compact_eq (Nat.le_refl _) (Nat.zero_le _)
  · exact compact_eq hrw hwc

theorem compact_overflowDiscard_of_inv {s : State} (h : s.Inv) : s.overflowDiscard.compact = .ok s.madeRoom :=
  compact_overflowDiscard_eq (cursors_of_inv h).1 (cursors_of_inv h).2

/-- E2 does nothing while the write cursor is below N. -/
theorem compacted_of_lt {s : State} (h : s.writeIdx < s.cap) : s.compacted = s :=
  if_neg fun hd => absurd ((compactionDue_iff s).1 hd).1 h.ne

/-- The three cases of E1 and E2: N bytes pending, the write cursor at N with fewer pending, the write cursor below N. -/
theorem madeRoom_cases {s : State} (h : s.AtRest) :
    (s.pending = s.cap ∧ s.madeRoom = s.setCursors 0 0) ∨
    (s.writeIdx = s.cap ∧ s.pending < s.cap ∧
      s.madeRoom = (s.setBuf (bufFill s.buf 0 s.pendingBytes)).setCursors 0 s.pending) ∨
    (s.writeIdx < s.cap ∧ s.madeRoom = s) := by
  obtain ⟨hrw, hwc⟩ := cursors_of_inv h.1
  have hpos := cap_pos_of_inv h.1
  have hle : s.pending ≤ s.writeIdx := Nat.sub_le _ _
  rcases overflowDiscard_cases s with ⟨hfull, e⟩ | ⟨hfree, e⟩ <;> rw [State.madeRoom, e]
  · exact .inl ⟨by omega, compacted_of_lt hpos⟩
  rcases Nat.lt_or_ge s.writeIdx s.cap with hlt | hge
  · exact .inr (.inr ⟨hlt, compacted_of_lt hlt⟩)
  · have hp : 0 < s.pending := Nat.pos_of_ne_zero fun hp => by
      have hzero := (writeIdx_of_atRest h hp).2
      omega
    exact .inr (.inl ⟨by omega, hfree, if_pos ((compactionDue_iff s).2 ⟨by omega, hp⟩)⟩)

/-! #### Ranges of a changed buffer -/

theorem window_congr {f g : Nat → Byte} {r d : Nat} (h : ∀ k, k < d → f (r + k) = g (r + k)) : window f r d = window g r d :=
  List.map_congr_left fun k hk => h k (List.mem_range.1 hk)

/-- A range of at least one byte, taken apart at its last byte. -/
theorem window_concat (f : Nat → Byte) (r d : Nat) : window f r (d + 1) = window f r d ++ [f (r + d)] := by
  simp [window, List.range_succ]

/-- A string listed from index 0 on reads back as that string. -/
theorem window_bufFill (m : List Host.Cell) (bs : Bytes) : window (bufGet (bufFill m 0 bs)) 0 bs.length = bs := by
  apply List.ext_getElem (length_window _ _ _)
  intro i hi hi'
  simp [window, bufGet_bufFill, hi']

/-- The range behind a listed string reads as before. -/
theorem bufGet_bufFill_behind {m : List Host.Cell} {bs : Bytes} {i : Nat} (h : bs.length ≤ i) :
    bufGet (bufFill m 0 bs) i = bufGet m i := by
  rw [bufGet_bufFill, if_pos (Nat.zero_le i), Nat.sub_zero, List.getD_eq_default _ _ h]

/-! #### What E1 to E3 leave -/

/-- E1 and E2 change the buffer and the cursors alone. -/
theorem madeRoom_frame {s : State} (h : s.AtRest) :
    s.madeRoom = { s with buf := s.madeRoom.buf, readIdx := s.madeRoom.readIdx, writeIdx := s.madeRoom.writeIdx } := by
  rcases madeRoom_cases h with ⟨-, e⟩ | ⟨-, -, e⟩ | ⟨-, e⟩ <;> rw [e]
  · rfl
  · rfl

theorem madeRoom_cap {s : State} (h : s.AtRest) : s.madeRoom.cap = s.cap := (congrArg State.cap (madeRoom_frame h)).trans rfl

/-- After E1 and E2 there is room for a byte (42_ingestion.md R96). -/
theorem madeRoom_cursors {s : State} (h : s.AtRest) :
    s.madeRoom.readIdx ≤ s.madeRoom.writeIdx ∧ s.madeRoom.writeIdx < s.cap := by
  rcases madeRoom_cases h with ⟨-, e⟩ | ⟨-, hp, e⟩ | ⟨hlt, e⟩ <;> rw [e]
  · exact ⟨Nat.le_refl _, cap_pos_of_inv h.1⟩
  · exact ⟨Nat.zero_le _, hp⟩
  · exact ⟨(cursors_of_inv h.1).1, hlt⟩

/-- E1 and E2 keep the pending bytes, unless N are pending. -/
theorem madeRoom_pendingBytes {s : State} (h : s.AtRest) :
    s.madeRoom.pendingBytes = if s.pending = s.cap then [] else s.pendingBytes := by
  have hle : s.pending ≤ s.writeIdx := Nat.sub_le _ _
  rcases madeRoom_cases h with ⟨hp, e⟩ | ⟨-, hp, e⟩ | ⟨hlt, e⟩ <;> rw [e]
  · exact (if_pos hp).symm
  · rw [if_neg hp.ne]
    have hread := window_bufFill s.buf s.pendingBytes
    rwa [length_pendingBytes] at hread
  · rw [if_neg (by omega)]

/-- E1 and E2 keep the buffer in canonical form and inside N bytes. -/
theorem madeRoom_buf {s : State} (h : s.AtRest) :
    Memory.wf s.madeRoom.buf = true ∧ ∀ c ∈ s.madeRoom.buf, c.1 < s.cap := by
  have hcases := madeRoom_cases h
  obtain ⟨⟨hw, hm, -⟩, -⟩ := h
  rcases hcases with ⟨-, e⟩ | ⟨-, hp, e⟩ | ⟨-, e⟩ <;> rw [e]
  · exact ⟨hw, hm⟩
  · refine ⟨wf_bufFill _ _ _ hw, fun c hc => ?_⟩
    rcases mem_bufFill _ _ _ c hc with hin | hin
    · rw [length_pendingBytes] at hin
      omega
    · exact hm c hin
  · exact ⟨hw, hm⟩

/-- E3's byte stands behind the pending ones. -/
theorem appended_pendingBytes {s : State} (b : Byte) (h : s.readIdx ≤ s.writeIdx) :
    (s.appended b).pendingBytes = s.pendingBytes ++ [b] := by
  have hpend : (s.appended b).pending = s.pending + 1 := by
    change s.writeIdx + 1 - s.readIdx = s.writeIdx - s.readIdx + 1
    omega
  have hlast : s.readIdx + s.pending = s.writeIdx := by unfold State.pending; omega
  change window (s.appended b).byte s.readIdx (s.appended b).pending = _
  rw [hpend, window_concat]
  congr 1
  · refine window_congr fun k hk => bufGet_bufSet_other _ _ _ _ ?_
    omega
  · rw [hlast]
    exact congrArg (fun x => [x]) (bufGet_bufSet_same _ _ _)

/-- E1 to E3 never fault at rest. -/
theorem prepare_eq {s : State} (h : s.AtRest) (b : Byte) : s.prepare b = .ok (s.madeRoom.appended b) := by
  have hlt : s.madeRoom.writeIdx < s.madeRoom.cap := madeRoom_cap h ▸ (madeRoom_cursors h).2
  exact (prepare_eq_ok s _ b).2 ⟨_, compact_overflowDiscard_of_inv h.1, (append_eq_ok _ _ b).2 ⟨hlt, rfl⟩⟩

/-- Settles O29: E1 and E2 complete and make room. -/
theorem appendIsInsideTheBuffer : Obligations.AppendIsInsideTheBuffer := fun _ h =>
  ⟨_, compact_overflowDiscard_of_inv h.1, (madeRoom_cap h).symm ▸ (madeRoom_cursors h).2, madeRoom_cap h⟩

/-- The byte E3 stores reads back, and every other byte reads as before. -/
theorem readByte_appended {s : State} (b : Byte) (h : s.writeIdx < s.cap) :
    (s.appended b).readByte s.writeIdx = .ok b ∧ ∀ i, i ≠ s.writeIdx → (s.appended b).readByte i = s.readByte i := by
  refine ⟨(readByte_eq_ok _ _ _).2 ⟨h, bufGet_bufSet_same _ _ _⟩, fun i hi => ?_⟩
  have hget : bufGet (s.appended b).buf i = bufGet s.buf i := bufGet_bufSet_other _ _ _ _ hi
  rw [State.readByte, State.readByte, hget]
  rfl

/-- Settles O27, by the three cases of E1 and E2. -/
theorem compactionMovesThePendingBytes : Obligations.CompactionMovesThePendingBytes := by
  intro s h
  have hcompact := compact_overflowDiscard_of_inv h.1
  have hprep := prepare_eq h
  have hbytes := madeRoom_pendingBytes h
  have hread := fun b => readByte_appended (s := s.madeRoom) b (madeRoom_cap h ▸ (madeRoom_cursors h).2)
  have hle : s.pending ≤ s.writeIdx := Nat.sub_le _ _
  have hwc := (cursors_of_inv h.1).2
  have hpos := cap_pos_of_inv h.1
  rcases madeRoom_cases h with ⟨hp, e⟩ | ⟨hw, hp, e⟩ | ⟨hlt, e⟩ <;> rw [e] at hcompact hprep hbytes hread
  · have hdiscard : s.overflowDiscard = s.setCursors 0 0 := if_pos hp.ge
    refine ⟨fun _ _ => by omega, fun _ => by omega, fun _ => ⟨hdiscard, by rw [hcompact, hdiscard], fun b => ?_⟩⟩
    exact ⟨_, hprep b, rfl, hread b⟩
  · refine ⟨fun _ _ => ⟨_, hcompact, rfl, ?_, fun i hi => ?_, fun b => ⟨_, hprep b, rfl, hread b⟩⟩, fun _ => by omega,
      fun _ => by omega⟩
    · rwa [if_neg hp.ne] at hbytes
    · have hget := bufGet_bufFill_behind (m := s.buf) (bs := s.pendingBytes) (i := i) (by rwa [length_pendingBytes])
      rw [State.readByte, State.readByte, State.setCursors_buf, State.setBuf_buf, hget]
      rfl
  · have hdiscard : s.overflowDiscard = s := if_neg (by omega)
    rw [hdiscard] at hcompact
    exact ⟨fun _ _ => by omega, fun _ => ⟨hdiscard, hcompact, fun b => ⟨_, hprep b, rfl, hread b⟩⟩, fun _ => by omega⟩

/-! #### Compaction as a copy, and what EAT_BYTE stores -/

/-- A copy downwards, byte after byte in ascending order, reads every byte before a write reaches it: it lists the bytes
that stood in the source range (20_memory.md R32). -/
theorem copyUp_eq_bufFill {s : State} {src dst n : Nat} (hdst : dst ≤ src) (hsrc : src + n ≤ s.cap) :
    s.copyUp src dst n = .ok (s.setBuf (bufFill s.buf dst (window s.byte src n))) := by
  induction n generalizing s src dst with
  | zero => rfl
  | succ n ih =>
    have hread := (readByte_eq_ok s src (s.byte src)).2 ⟨by omega, rfl⟩
    have hwrite := (writeByte_eq_ok s _ dst (s.byte src)).2 ⟨by omega, rfl⟩
    have hrest := ih (s := s.setBuf (bufSet s.buf dst (s.byte src))) (src := src + 1) (dst := dst + 1) (by omega)
      (by rw [State.setBuf_cap]; omega)
    have hunread : window (s.setBuf (bufSet s.buf dst (s.byte src))).byte (src + 1) n = window s.byte (src + 1) n :=
      window_congr fun k _ => bufGet_bufSet_other _ _ _ _ (by omega)
    rw [State.copyUp, hread]
    simp only [hwrite, hrest, hunread]
    rw [window_succ]
    rfl

/-- Settles O28: the copy lists the pending bytes from index 0 on, as E2 does. -/
theorem compactionIsTheAscendingCopy : Obligations.CompactionIsTheAscendingCopy := by
  rintro s ⟨⟨-, -, -, hrw, hwc, -⟩, -⟩ hw hp
  have hdue : s.compactionDue = true := (compactionDue_iff s).2 ⟨hw, hp⟩
  refine ⟨_, copyUp_eq_bufFill (Nat.zero_le _) (by unfold State.pending; omega), ?_⟩
  rw [compact_eq hrw hwc, State.compacted, if_pos hdue]
  rfl

theorem madeRoom_setResult (s : State) (r : Option OpResult) : (s.setResult r).madeRoom = s.madeRoom.setResult r := by
  have hd : (s.setResult r).overflowDiscard = s.overflowDiscard.setResult r := by
    unfold State.overflowDiscard
    split_ifs with h1 h2 h2
    · rfl
    · exact absurd h1 h2
    · exact absurd h2 h1
    · rfl
  rw [State.madeRoom, hd]
  unfold State.madeRoom State.compacted
  split_ifs with h1 h2 h2
  · rfl
  · exact absurd h1 h2
  · exact absurd h2 h1
  · rfl

/-- EAT_BYTE, if it answers, has written the buffer as E1 to E3 do, and kept N. -/
theorem exec_eatByte_buf {s t : State} {b : Byte} (h : exec (.eatByte b) s = .next t) :
    s.madeRoom.writeIdx < s.madeRoom.cap ∧ t.cap = s.madeRoom.cap ∧ t.buf = (s.madeRoom.appended b).buf := by
  obtain ⟨-, hdom, u, hu, hrun⟩ := eatByteWith_eq_next h
  obtain ⟨-, hrw, hwc⟩ := (domainRefusal_eq_none s).1 hdom
  obtain ⟨c, hc, happ⟩ := (prepare_eq_ok _ u b).1 hu
  obtain ⟨hlt, rfl⟩ := (append_eq_ok c u b).1 happ
  have hcompact : (s.setResult none).overflowDiscard.compact = .ok (s.madeRoom.setResult none) := by
    rw [← madeRoom_setResult]
    exact compact_overflowDiscard_eq hrw hwc
  obtain rfl : s.madeRoom.setResult none = c := Except.ok.inj (hcompact.symm.trans hc)
  refine ⟨hlt, ?_⟩
  rcases hrun with ⟨-, -, rfl⟩ | ⟨-, hloop⟩
  · exact ⟨rfl, rfl⟩
  · have hstep : ∀ v w, v.cap = s.madeRoom.cap ∧ v.buf = (s.madeRoom.appended b).buf → scanOnce v = .next w →
        w.cap = s.madeRoom.cap ∧ w.buf = (s.madeRoom.appended b).buf := by
      rintro v w ⟨hcap, hbuf⟩ hvw
      have hanswer := answerOf_of_scanOnce hvw
      exact ⟨hanswer.cap_eq.trans hcap, hanswer.buf_eq.trans hbuf⟩
    refine runScan_keeps hstep _ _ _ ?_ hloop
    exact ⟨rfl, rfl⟩

/-- Settles O30: the loop does not write the buffer, E3 stores one byte, and E2, where it is due, lists the pending bytes. -/
theorem eatByteStoresOnlyTheMovedBytesAndTheNewOne : Obligations.EatByteStoresOnlyTheMovedBytesAndTheNewOne := by
  intro s c t b hc h
  obtain ⟨-, hdom, -⟩ := eatByteWith_eq_next h
  obtain ⟨-, hrw, hwc⟩ := (domainRefusal_eq_none s).1 hdom
  obtain rfl : s.madeRoom = c := Except.ok.inj ((compact_overflowDiscard_eq hrw hwc).symm.trans hc)
  obtain ⟨hlt, hcap, hbuf⟩ := exec_eatByte_buf h
  have hread := readByte_congr (s := s.madeRoom.appended b) (t := t) hcap hbuf
  obtain ⟨hnew, hold⟩ := readByte_appended b hlt
  refine ⟨(hread _).trans hnew, fun a ha hnot => ((hread a).trans (hold a ha)).trans ?_⟩
  have hsame : s.overflowDiscard.readByte a = s.readByte a := by
    rcases overflowDiscard_cases s with ⟨-, e⟩ | ⟨-, e⟩ <;> rw [e]
    rfl
  rw [← hsame]
  unfold State.madeRoom State.compacted
  split_ifs with hdue
  · have hbehind : s.overflowDiscard.pendingBytes.length ≤ a := by
      rw [length_pendingBytes]
      exact Nat.le_of_not_lt fun hlt => hnot ⟨hdue, hlt⟩
    have hget := bufGet_bufFill_behind (m := s.overflowDiscard.buf) hbehind
    unfold State.readByte
    rw [State.setCursors_buf, State.setBuf_buf, hget]
    rfl
  · rfl

end Sys2Proof.Machine

/-! ### The scan loop as a run over the pending bytes (42_ingestion.md R80, R85 to R90) -/

namespace Sys2Proof.Machine

/-! #### One iteration inside the invariant -/

/-- At most the longest header's bytes are decoded, so three bytes decode as the whole string does. -/
theorem decode_take_maxHeader (bs : Bytes) : decode (bs.take maxHeader) = decode bs := by
  match bs with
  | [] => rfl
  | [_] => rfl
  | [_, _] => rfl
  | _ :: _ :: _ :: _ => rfl

/-- The header fetched at `read_idx` is that of the pending bytes. -/
theorem fetch_eq_decode_pendingBytes {s : State} (h : s.Inv) : s.fetch = .ok (decode s.pendingBytes) := by
  have hread := memRead_drop_take h (Nat.zero_le _) (Nat.min_le_right maxHeader s.pending)
  rw [Nat.add_zero, Nat.sub_zero, List.drop_zero] at hread
  refine (fetch_eq_ok s _).2 ⟨_, hread, ?_⟩
  rw [← decode_take_maxHeader s.pendingBytes, ← length_pendingBytes, ← List.take_eq_take_min]

/-- One iteration is the loop's answer to the scanner's verdict on the pending bytes. -/
theorem scanOnce_eq_respond {s : State} (h : s.Inv) :
    scanOnce s = respond (scanBytes s.cap s.readIdx s.pendingBytes) s := by
  rw [scanOnce, scanOnceWith, guarded_of_none (domainRefusal_of_inv h), fetch_eq_decode_pendingBytes h, orFault_ok]
  cases hdec : decode s.pendingBytes with
  | needMore k => simp only [scanBytes, hdec]
  | instr i =>
    have hi := decode_isOperation hdec
    rw [scanBytes_of_decode _ _ hdec, ← exec_eq_respond h hi]
    exact runSelector_eq_exec i s hi

/-- The three forms of an iteration, by the verdict on the pending bytes. -/
theorem scanOnce_cases {s : State} (h : s.Inv) :
    (∃ k, scanBytes s.cap 0 s.pendingBytes = .needMoreBytes k ∧ scanOnce s = .next (s.waitingFor k)) ∨
    (∃ c, scanBytes s.cap 0 s.pendingBytes = .invalidData c ∧ scanOnce s = .next (s.loopAt (s.readIdx + 1))) ∨
    (∃ count lo hi, scanBytes s.cap 0 s.pendingBytes = .consumed count lo hi ∧
      scanOnce s = .next ((s.emit ((s.pendingBytes.drop lo).take (hi - lo))).loopAt (s.readIdx + count))) := by
  have e := scanOnce_eq_respond h
  rw [scanBytes_shift] at e
  cases hscan : scanBytes s.cap 0 s.pendingBytes with
  | needMoreBytes k => exact .inl ⟨k, rfl, e.trans (hscan ▸ respond_needMoreBytes k s)⟩
  | invalidData c => exact .inr (.inl ⟨c, rfl, e.trans (hscan ▸ respond_invalidData c s)⟩)
  | consumed count lo hi =>
    obtain ⟨-, -, -, hcount, -, hlohi, hhi⟩ := scanBytes_consumed_isFrameOf hscan
    rw [length_pendingBytes] at hcount
    exact .inr (.inr ⟨count, lo, hi, rfl, e.trans (hscan ▸ respond_consumed h hlohi (hhi.trans hcount))⟩)

/-! #### What an iteration leaves pending, and the invariant -/

theorem window_drop (f : Nat → Byte) (r d a : Nat) : (window f r d).drop a = window f (r + a) (d - a) := by
  apply List.ext_getElem
  · simp
  · intro i hi hi'
    simp [window, Nat.add_assoc]

/-- Moving `read_idx` forward drops pending bytes at the front. -/
theorem pendingBytes_loopAt (s : State) (d : Nat) :
    (s.loopAt (s.readIdx + d)).pendingBytes = s.pendingBytes.drop d := by
  have hdrop : s.pendingBytes.drop d = window s.byte (s.readIdx + d) (s.writeIdx - (s.readIdx + d)) := by
    rw [Nat.sub_add_eq]
    exact window_drop s.byte s.readIdx s.pending d
  rw [hdrop]
  unfold State.loopAt
  split_ifs with h1 h2
  · rfl
  · rw [h2, Nat.sub_self]
    rfl
  · rfl

theorem pendingBytes_waitingFor (s : State) (k : Nat) : (s.waitingFor k).pendingBytes = s.pendingBytes := by
  unfold State.waitingFor
  split_ifs with h
  · have hp : s.pending = 0 := by unfold State.pending; omega
    change [] = window s.byte s.readIdx s.pending
    rw [hp]
    rfl
  · rfl

/-- An iteration that gives up at least one pending byte keeps the invariant. -/
theorem loopAt_inv {s : State} (h : s.Inv) {d : Nat} (h1 : 1 ≤ d) (hd : d ≤ s.pending) :
    (s.loopAt (s.readIdx + d)).Inv := by
  obtain ⟨hw, hm, hcap, hrw, hwc, -, hloop, hhint⟩ := h
  unfold State.pending at hd hloop
  unfold State.loopAt
  split_ifs with hmore hempty
  · refine ⟨hw, hm, hcap, ?_, hwc, fun h0 => ?_, fun _ => ?_, hhint⟩
    · simp only; omega
    · simp only at h0; omega
    · have := hloop (by omega)
      simp only [State.pending]
      omega
  · exact ⟨hw, hm, hcap, Nat.le_refl _, Nat.zero_le _, fun _ _ => rfl, fun h0 => absurd rfl h0, hhint⟩
  · refine ⟨hw, hm, hcap, ?_, hwc, fun _ h0 => absurd h0 hempty, fun h0 => absurd rfl h0, hhint⟩
    simp only; omega

/-- So does an iteration that waits for a count within the hint's bound. -/
theorem waitingFor_atRest {s : State} (h : s.Inv) {k : Nat} (hk : k ≤ s.cap + 3) : (s.waitingFor k).AtRest := by
  obtain ⟨hw, hm, hcap, hrw, hwc, -⟩ := h
  refine ⟨?_, waitingFor_scanLeft s k⟩
  unfold State.waitingFor
  split_ifs with hempty
  · exact ⟨hw, hm, hcap, Nat.le_refl _, Nat.zero_le _, fun _ _ => rfl, fun h0 => absurd rfl h0, hk⟩
  · exact ⟨hw, hm, hcap, hrw, hwc, fun _ h0 => absurd h0 hempty, fun h0 => absurd rfl h0, hk⟩

/-- The invariant reads neither the sink nor the returned value nor the port. -/
theorem emit_inv {s : State} (h : s.Inv) (p : Bytes) : (s.emit p).Inv := h

/-- One iteration completes and keeps the invariant. -/
theorem scanOnce_keeps_inv {s : State} (h : s.Inv) : ∃ t, scanOnce s = .next t ∧ t.Inv := by
  rcases scanOnce_cases h with ⟨k, hscan, e⟩ | ⟨c, hscan, e⟩ | ⟨count, lo, hi, hscan, e⟩
  · exact ⟨_, e, (waitingFor_atRest h (scanBytes_eq_needMore hscan).2).1⟩
  · have hlen := scanBytes_eq_invalid hscan
    rw [length_pendingBytes] at hlen
    exact ⟨_, e, loopAt_inv h (Nat.le_refl 1) hlen⟩
  · obtain ⟨p, -, hframe, hcount, -⟩ := scanBytes_consumed_isFrameOf hscan
    obtain ⟨-, hpos, -⟩ := hframe.length_bounds
    rw [List.length_take] at hpos
    rw [length_pendingBytes] at hcount hpos
    exact ⟨_, e, loopAt_inv (emit_inv h _) (by omega) hcount⟩

/-! #### The loop -/

/-- What the loop entered in `s` has made of it at its end `t`, where `q` are the payloads emitted, the bytes left pending
and the hint written, if one was: `t` is at rest, and the write cursor has not moved unless nothing is pending. -/
structure ScanEnd (s : State) (q : List Bytes × Bytes × Option Nat) (t : State) : Prop where
  atRest : t.AtRest
  frame : t = { s with readIdx := t.readIdx, writeIdx := t.writeIdx, bytesLeft := t.bytesLeft, scanLeft := t.scanLeft,
                       sink := t.sink }
  sink_eq : t.sink = s.sink ++ q.1
  pendingBytes_eq : t.pendingBytes = q.2.1
  bytesLeft_eq : t.bytesLeft = q.2.2.getD s.bytesLeft
  writeIdx_cases : t.pending = 0 ∨ t.writeIdx = s.writeIdx

/-- At rest the loop has ended. -/
theorem runScan_of_scanLeft_zero {s : State} (k : Nat) (h : s.scanLeft = 0) : runScan k s = .next s := by
  cases k with
  | zero => rfl
  | succ k => exact if_pos h

/-- In progress the loop goes on after its next iteration. -/
theorem runScan_succ_of_next {s t : State} (k : Nat) (h : s.scanLeft ≠ 0) (hnext : scanOnce s = .next t) :
    runScan (k + 1) s = runScan k t := by
  rw [runScan, if_neg h, hnext]

/-- A loop that goes on after an iteration that gave up `d` bytes and emitted `ps` ends as that iteration followed by the
rest of the loop. -/
theorem ScanEnd.of_loopAt {s t : State} {ps qs : List Bytes} {d : Nat} {rest : Bytes} {m : Option Nat}
    (ht : ScanEnd (({ s with sink := s.sink ++ ps } : State).loopAt (s.readIdx + d)) (qs, rest, m) t) :
    ScanEnd s (ps ++ qs, rest, m) t := by
  obtain ⟨hrest, hframe, hsink, hpend, hhint, hcursor⟩ := ht
  obtain ⟨hloop, hwrite⟩ := loopAt_frame ({ s with sink := s.sink ++ ps } : State) (s.readIdx + d)
  refine ⟨hrest, ?_, ?_, hpend, ?_, ?_⟩
  · rw [hframe, hloop]
  · rw [hsink, loopAt_sink]
    exact List.append_assoc _ _ _
  · rw [hhint, loopAt_bytesLeft]
  · rcases hcursor with hzero | hw
    · exact .inl hzero
    rcases hwrite with hw' | ⟨hw', -⟩
    · exact .inr (hw.trans hw')
    · have hle : t.pending ≤ t.writeIdx := Nat.sub_le _ _
      exact .inl (by omega)

/-- A loop that waits ends with its pending bytes as they are. -/
theorem scanEnd_waitingFor {s : State} (h : s.Inv) {m : Nat} (hm : m ≤ s.cap + 3) :
    ScanEnd s ([], s.pendingBytes, some m) (s.waitingFor m) := by
  obtain ⟨hframe, hwrite⟩ := waitingFor_frame s m
  refine ⟨waitingFor_atRest h hm, ?_, ?_, pendingBytes_waitingFor s m, waitingFor_bytesLeft s m, ?_⟩
  · conv_lhs => rw [hframe]
    rw [waitingFor_sink]
  · rw [waitingFor_sink, List.append_nil]
  · rcases hwrite with hw | ⟨hw, -⟩
    · exact .inr hw
    · have hle : (s.waitingFor m).pending ≤ (s.waitingFor m).writeIdx := Nat.sub_le _ _
      exact .inl (by omega)

/-- The loop completes, and what it does to the pending bytes is `scanQueue`. -/
theorem runScan_scanEnd (k : Nat) {s : State} (h : s.Inv) (hk : s.scanLeft = k) :
    ∃ t, runScan k s = .next t ∧ ScanEnd s (scanQueue s.cap k s.pendingBytes) t := by
  induction k generalizing s with
  | zero => exact ⟨s, rfl, ⟨h, hk⟩, rfl, (List.append_nil _).symm, rfl, rfl, .inr rfl⟩
  | succ k ih =>
    have hne : s.scanLeft ≠ 0 := by omega
    rcases scanOnce_cases h with ⟨m, hscan, e⟩ | ⟨c, hscan, e⟩ | ⟨count, lo, hi, hscan, e⟩
    · refine ⟨s.waitingFor m, ?_, ?_⟩
      · rw [runScan_succ_of_next k hne e, runScan_of_scanLeft_zero k (waitingFor_scanLeft s m)]
      · simpa only [scanQueue, hscan] using scanEnd_waitingFor h (scanBytes_eq_needMore hscan).2
    · have hlen := scanBytes_eq_invalid hscan
      rw [length_pendingBytes] at hlen
      obtain ⟨t, hrun, hend⟩ := ih (loopAt_inv h (Nat.le_refl 1) hlen) (by rw [loopAt_scanLeft]; omega)
      rw [pendingBytes_loopAt, loopAt_cap] at hend
      refine ⟨t, (runScan_succ_of_next k hne e).trans hrun, ?_⟩
      have hs : ({ s with sink := s.sink ++ [] } : State) = s := by rw [List.append_nil]
      simpa only [scanQueue, hscan, List.nil_append] using ScanEnd.of_loopAt (ps := []) (hs.symm ▸ hend)
    · obtain ⟨p, hpay, hframe, hcount, -⟩ := scanBytes_consumed_isFrameOf hscan
      obtain ⟨-, hpos, -⟩ := hframe.length_bounds
      rw [List.length_take] at hpos
      rw [length_pendingBytes] at hcount hpos
      obtain ⟨t, hrun, hend⟩ := ih (loopAt_inv (emit_inv h ((s.pendingBytes.drop lo).take (hi - lo))) (d := count)
        (by omega) hcount) (by rw [loopAt_scanLeft, State.emit_scanLeft]; omega)
      have hdrop : ((s.emit ((s.pendingBytes.drop lo).take (hi - lo))).loopAt (s.readIdx + count)).pendingBytes =
          s.pendingBytes.drop count := pendingBytes_loopAt (s.emit _) count
      rw [State.emit_readIdx, hdrop, loopAt_cap, State.emit_cap] at hend
      refine ⟨t, (runScan_succ_of_next k hne e).trans hrun, ?_⟩
      simpa only [scanQueue, hscan, List.singleton_append] using ScanEnd.of_loopAt hend

/-! #### EAT_BYTE -/

/-- The state after E1 to E3 of an EAT_BYTE. -/
def State.prepared (s : State) (b : Byte) : State := (s.madeRoom.appended b).setResult none

theorem prepared_frame {s : State} (h : s.AtRest) (b : Byte) :
    s.prepared b = { s with buf := (s.prepared b).buf, readIdx := (s.prepared b).readIdx,
                            writeIdx := (s.prepared b).writeIdx, result := none } := by
  conv_lhs => rw [State.prepared, State.appended, madeRoom_frame h]
  rfl

theorem prepared_pendingBytes {s : State} (h : s.AtRest) (b : Byte) :
    (s.prepared b).pendingBytes = (if s.cap ≤ s.pendingBytes.length then [] else s.pendingBytes) ++ [b] := by
  have hle : s.pending ≤ s.cap := (Nat.sub_le _ _).trans (cursors_of_inv h.1).2
  have hfull : s.cap ≤ s.pending ↔ s.pending = s.cap := by omega
  have happ := appended_pendingBytes b (madeRoom_cursors h).1
  rw [madeRoom_pendingBytes h] at happ
  simp only [length_pendingBytes, hfull]
  exact happ

/-- The prepared byte is pending, inside the buffer. -/
theorem prepared_cursors {s : State} (h : s.AtRest) (b : Byte) :
    (s.prepared b).readIdx < (s.prepared b).writeIdx ∧ (s.prepared b).writeIdx ≤ s.cap := by
  obtain ⟨hrw, hlt⟩ := madeRoom_cursors h
  exact ⟨Nat.lt_succ_of_le hrw, hlt⟩

theorem prepared_atRest {s : State} (h : s.AtRest) (b : Byte) : (s.prepared b).AtRest := by
  obtain ⟨hlt, hwc⟩ := prepared_cursors h b
  obtain ⟨hw, hm⟩ := madeRoom_buf h
  have hroom := (madeRoom_cursors h).2
  have hframe := prepared_frame h b
  obtain ⟨⟨-, -, hcap, -, -, -, -, hhint⟩, hscan⟩ := h
  have hscan' : (s.prepared b).scanLeft = 0 := by rw [hframe]; exact hscan
  have hcap' : (s.prepared b).cap = s.cap := by rw [hframe]
  refine ⟨⟨wf_bufSet _ _ _ hw, fun c hc => ?_, hcap' ▸ hcap, hlt.le, hcap' ▸ hwc, fun _ h0 => absurd h0 hlt.ne,
    fun h0 => absurd hscan' h0, ?_⟩, hscan'⟩
  · rw [hcap']
    rcases mem_bufSet _ _ _ c hc with rfl | hc
    · exact hroom
    · exact hm c hc
  · rw [hframe]
    exact hhint

/-- The scan loop entered on all pending bytes, at least one of them. -/
theorem setScan_pending_inv {s : State} (h : s.Inv) (hlt : s.readIdx < s.writeIdx) : (s.setScan s.pending).Inv := by
  obtain ⟨hw, hm, hcap, hrw, hwc, -, -, hhint⟩ := h
  refine ⟨hw, hm, hcap, hrw, hwc, fun h0 => ?_, fun _ => Nat.le_refl _, hhint⟩
  rw [State.setScan_scanLeft] at h0
  unfold State.pending at h0
  omega

/-- E5 and E6 complete, and what they do to the pending bytes is `scanQueue`. -/
theorem scanAll_scanEnd {s : State} (h : s.Inv) (hlt : s.readIdx < s.writeIdx) :
    ∃ t, s.scanAll = .next t ∧ ScanEnd s (scanQueue s.cap s.pendingBytes.length s.pendingBytes) t := by
  obtain ⟨t, hrun, hend⟩ := runScan_scanEnd s.pending (setScan_pending_inv h hlt) rfl
  rw [length_pendingBytes]
  exact ⟨t, hrun, hend.atRest, hend.frame, hend.sink_eq, hend.pendingBytes_eq, hend.bytesLeft_eq, hend.writeIdx_cases⟩

/-- EAT_BYTE at rest: E1 to E3, then the skip or the loop. -/
theorem eatByteWith_eq {s : State} (h : s.AtRest) (hint : Bool) (b : Byte) :
    eatByteWith hint b s =
      if hint = true ∧ 1 < s.bytesLeft then .next ((s.prepared b).setHint (s.bytesLeft - 1)) else (s.prepared b).scanAll := by
  have hprep : (s.setResult none).prepare b = .ok (s.prepared b) := by
    rw [prepare_eq (s := s.setResult none) h, madeRoom_setResult]
    rfl
  have hhint : (s.prepared b).bytesLeft = s.bytesLeft := by rw [prepared_frame h]
  rw [eatByteWith, if_neg (not_not.2 h.2), guarded_of_none (domainRefusal_of_inv h.1), hprep, orFault_ok, hhint]
  simp only [Bool.and_eq_true, decide_eq_true_eq]

theorem exec_eatByte_of_skip {s : State} (h : s.AtRest) (b : Byte) (hk : 1 < s.bytesLeft) :
    exec (.eatByte b) s = .next ((s.prepared b).setHint (s.bytesLeft - 1)) :=
  (eatByteWith_eq h true b).trans (if_pos ⟨rfl, hk⟩)

theorem exec_eatByte_of_scan {s : State} (h : s.AtRest) (b : Byte) (hk : s.bytesLeft ≤ 1) :
    exec (.eatByte b) s = (s.prepared b).scanAll :=
  (eatByteWith_eq h true b).trans (if_neg fun hc => by omega)

/-- The queue decoder of `eatQueue`, with or without the skip E4. -/
def eatQueueWith (skip : Bool) (n : Nat) (pending : Bytes) (hint : Nat) (b : Byte) : List Bytes × Bytes × Nat :=
  let queue := (if n ≤ pending.length then [] else pending) ++ [b]
  if skip = true ∧ 1 < hint then ([], queue, hint - 1)
  else ((scanQueue n queue.length queue).1, (scanQueue n queue.length queue).2.1,
    (scanQueue n queue.length queue).2.2.getD hint)

theorem eatQueueWith_true (n : Nat) (pending : Bytes) (hint : Nat) (b : Byte) :
    eatQueueWith true n pending hint b = eatQueue n pending hint b := by
  unfold eatQueueWith eatQueue
  simp only [true_and]

/-- What EAT_BYTE, with or without the skip, has made of `s` at its end `t`, where `q` are the payloads emitted, the bytes
then pending and the hint. -/
structure EatEnd (s : State) (q : List Bytes × Bytes × Nat) (t : State) : Prop where
  atRest : t.AtRest
  cap_eq : t.cap = s.cap
  sink_eq : t.sink = s.sink ++ q.1
  pendingBytes_eq : t.pendingBytes = q.2.1
  bytesLeft_eq : t.bytesLeft = q.2.2
  writeIdx_cases : t.pending = 0 ∨ t.writeIdx = s.madeRoom.writeIdx + 1

/-- EAT_BYTE at rest completes, and what it does is the queue decoder's. -/
theorem eatByteWith_eatEnd {s : State} (h : s.AtRest) (skip : Bool) (b : Byte) :
    ∃ t, eatByteWith skip b s = .next t ∧ EatEnd s (eatQueueWith skip s.cap s.pendingBytes s.bytesLeft b) t := by
  have hframe := prepared_frame h b
  have hrest := prepared_atRest h b
  have hcap : (s.prepared b).cap = s.cap := by rw [hframe]
  have hbytes := prepared_pendingBytes h b
  have hlt := (prepared_cursors h b).1
  rw [eatByteWith_eq h]
  unfold eatQueueWith
  rw [← hbytes]
  split_ifs with hskip
  · refine ⟨_, rfl, ?_, hcap, ?_, rfl, rfl, .inr rfl⟩
    · obtain ⟨⟨hw, hm, hc, hrw, hwc, hr, hl, hhint⟩, hscan⟩ := hrest
      refine ⟨⟨hw, hm, hc, hrw, hwc, hr, hl, ?_⟩, hscan⟩
      rw [hframe] at hhint
      rw [State.setHint_bytesLeft, State.setHint_cap, hcap]
      exact (Nat.sub_le _ _).trans hhint
    · rw [State.setHint_sink, hframe]
      exact (List.append_nil _).symm
  · obtain ⟨t, hrun, hend⟩ := scanAll_scanEnd hrest.1 hlt
    rw [hcap] at hend
    have hsink : (s.prepared b).sink = s.sink := by rw [hframe]
    have hhint : (s.prepared b).bytesLeft = s.bytesLeft := by rw [hframe]
    exact ⟨t, hrun, hend.atRest, hend.frame ▸ hcap, hsink ▸ hend.sink_eq, hend.pendingBytes_eq, hhint ▸ hend.bytesLeft_eq,
      hend.writeIdx_cases⟩

theorem exec_eatByte_eatEnd {s : State} (h : s.AtRest) (b : Byte) :
    ∃ t, exec (.eatByte b) s = .next t ∧ EatEnd s (eatQueue s.cap s.pendingBytes s.bytesLeft b) t :=
  eatQueueWith_true s.cap _ _ b ▸ eatByteWith_eatEnd h true b

/-- Settles O23: it is `exec_eatByte_eatEnd`. -/
theorem eatByteRefinesTheQueueDecoder : Obligations.EatByteRefinesTheQueueDecoder := by
  intro s b h
  obtain ⟨t, ht, hend⟩ := exec_eatByte_eatEnd h b
  exact ⟨t, ht, hend.sink_eq, hend.pendingBytes_eq, hend.bytesLeft_eq⟩

end Sys2Proof.Machine

/-! ### Safety, and EAT_BYTE case by case (42_ingestion.md R80 to R97, 60_exceptions.md R110) -/

namespace Sys2Proof.Machine

/-! #### The invariant along steps -/

theorem setResult_atRest {s : State} (h : s.AtRest) (r : Option OpResult) : (s.setResult r).AtRest := h

theorem setPort_atRest {s : State} (h : s.AtRest) (ops : List Op) : (s.setPort ops).AtRest := h

/-- RESET leaves a state at rest, from any state with the invariant. -/
theorem exec_reset_atRest {s : State} (h : s.Inv) : ∃ t, exec .reset s = .next t ∧ t.AtRest := by
  obtain ⟨hw, hm, hcap, -⟩ := h
  exact ⟨_, rfl, ⟨hw, hm, hcap, Nat.le_refl _, Nat.zero_le _, fun _ _ => rfl, fun h0 => absurd rfl h0, Nat.zero_le _⟩, rfl⟩

/-- DECODE_FRAME within the pending bytes completes; the count it may note is within the hint's bound. -/
theorem exec_decodeFrame_atRest {s : State} (h : s.AtRest) {d : Nat} (hd : d ≤ s.pending) :
    ∃ t, exec (.decodeFrame d) s = .next t ∧ t.AtRest := by
  refine ⟨_, execDecodeFrame_of_le_pending h.1 hd, setResult_atRest ?_ _⟩
  cases hscan : scanBytes s.cap s.readIdx (window s.byte s.readIdx d) with
  | needMoreBytes k =>
    obtain ⟨⟨hw, hm, hcap, hrw, hwc, hrest, hloop, -⟩, hs⟩ := h
    exact ⟨⟨hw, hm, hcap, hrw, hwc, hrest, hloop, (scanBytes_eq_needMore hscan).2⟩, hs⟩
  | invalidData c => exact h
  | consumed count lo hi => exact h

/-- Settles O22: EAT_BYTE by its queue decoder, the others by what they set. -/
theorem decoderOperationsNeverFail : Obligations.DecoderOperationsNeverFail := by
  refine fun s h => ⟨fun b => ?_, exec_reset_atRest h.1, fun d hd => exec_decodeFrame_atRest h hd,
    fun bs => ⟨_, rfl, setResult_atRest h _⟩⟩
  obtain ⟨t, ht, hend⟩ := exec_eatByte_eatEnd h b
  exact ⟨t, _, ht, hend.atRest, hend.sink_eq⟩

/-- An operation at rest completes at rest or is refused; it does not fault. -/
theorem exec_op_cases {s : State} (h : s.AtRest) (op : Op) :
    (∃ t, exec op.instr s = .next t ∧ t.AtRest) ∨ ∃ r, exec op.instr s = .refused r := by
  obtain ⟨heat, hreset, hdecode, hcrc⟩ := decoderOperationsNeverFail s h
  cases op with
  | reset => exact .inl hreset
  | eatByte b =>
    obtain ⟨t, -, ht, hrest, -⟩ := heat b
    exact .inl ⟨t, ht, hrest⟩
  | decodeFrame d =>
    by_cases hd : d ≤ s.pending
    · exact .inl (hdecode d hd)
    · exact .inr ⟨_, (callsOutsideTheDomainAreRefused s).2.1 d h.1 (by omega)⟩
  | crc16 bs => exact .inl (hcrc bs)
  | sizeHint f => exact .inl ⟨_, rfl, setResult_atRest h _⟩
  | commitFrame p dest n =>
    cases hn : capacityLegal n with
    | false => exact .inr ⟨_, if_neg (Bool.eq_false_iff.1 hn)⟩
    | true => exact .inl ⟨_, if_pos hn, setResult_atRest h _⟩

/-- Under the invariant a step keeps the invariant or is refused; it does not fault. -/
theorem step_cases {s : State} (h : s.Inv) : (∃ t, step s = .next t ∧ t.Inv) ∨ ∃ r, step s = .refused r := by
  by_cases hs : s.scanLeft = 0
  · obtain ⟨htake, hidle⟩ := stepTakesTheOldestOperation s hs
    cases hport : s.port with
    | nil => exact .inl ⟨s, hidle hport, h⟩
    | cons op ops =>
      rw [htake op ops hport]
      rcases exec_op_cases (setPort_atRest ⟨h, hs⟩ ops) op with ⟨t, ht, hinv, -⟩ | hr
      · exact .inl ⟨t, ht, hinv⟩
      · exact .inr hr
  · have hstep : step s = scanOnce s := (if_pos hs).trans (scanOnce_eq_exec s).symm
    rw [hstep]
    exact .inl (scanOnce_keeps_inv h)

/-- Settles O53. -/
theorem stepKeepsTheInvariant : Obligations.StepKeepsTheInvariant := by
  intro s t h ht
  rcases step_cases h with ⟨u, hu, hinv⟩ | ⟨r, hr⟩
  · cases hu.symm.trans ht
    exact hinv
  · cases hr.symm.trans ht

/-- Settles O54. -/
theorem stepNeverFaultsUnderTheInvariant : Obligations.StepNeverFaultsUnderTheInvariant := by
  intro s f h hf
  rcases step_cases h with ⟨u, hu, -⟩ | ⟨r, hr⟩
  · cases hu.symm.trans hf
  · cases hr.symm.trans hf

/-! #### The loop in single steps -/

/-- A run goes on after its first step, or ends with it. -/
theorem run_succ (M : Host.Core) (k : Nat) (s : M.State) :
    (∀ t, M.step s = .next t → M.run (k + 1) s = M.run k t) ∧ (∀ f, M.step s = .fault f → M.run (k + 1) s = .fault f) ∧
    ∀ r, M.step s = .refused r → M.run (k + 1) s = .refused r :=
  ⟨fun _ h => by rw [Host.Core.run, h], fun _ h => by rw [Host.Core.run, h], fun _ h => by rw [Host.Core.run, h]⟩

/-- With nothing offered, a run of single steps is the scan loop: a step in the loop is an iteration, and a step at rest
idles. -/
theorem run_eq_runScan (k : Nat) {s : State} (hport : s.port = []) : Host.Core.run core k s = runScan k s := by
  induction k generalizing s with
  | zero => rfl
  | succ k ih =>
    obtain ⟨hnext, hfault, hrefused⟩ := run_succ core k s
    by_cases hs : s.scanLeft = 0
    · rw [runScan_of_scanLeft_zero _ hs, ← runScan_of_scanLeft_zero k hs, ← ih hport]
      exact hnext s ((stepTakesTheOldestOperation s hs).2 hport)
    · have hstep : core.step s = scanOnce s := (if_pos hs).trans (scanOnce_eq_exec s).symm
      rw [runScan, if_neg hs]
      cases honce : scanOnce s with
      | next t => exact (hnext t (hstep.trans honce)).trans (ih ((answerOf_of_scanOnce honce).port_eq.trans hport))
      | fault f => exact hfault f (hstep.trans honce)
      | refused r => exact hrefused r (hstep.trans honce)

/-- Settles O24: the state the steps begin with is the one in which EAT_BYTE enters its loop. -/
theorem eatByteIsPreparationThenSteps : Obligations.EatByteIsPreparationThenSteps := by
  intro s t b h hport hk ht
  obtain rfl : s.madeRoom.appended b = t := Except.ok.inj ((prepare_eq h b).symm.trans ht)
  have hport' : ((s.prepared b).setScan (s.prepared b).pending).port = [] := by
    rw [State.setScan_port, prepared_frame h]
    exact hport
  exact (run_eq_runScan _ hport').trans (exec_eatByte_of_scan h b hk).symm

/-! #### The hint skip and the overflow discard -/

/-- The cursors E1 to E3 leave, in the three cases of E1 and E2. -/
theorem prepared_cursors_cases {s : State} (h : s.AtRest) (b : Byte) :
    (s.writeIdx ≠ s.cap → (s.prepared b).readIdx = s.readIdx ∧ (s.prepared b).writeIdx = s.writeIdx + 1) ∧
    (s.writeIdx = s.cap → s.pending < s.cap → (s.prepared b).readIdx = 0 ∧ (s.prepared b).writeIdx = s.pending + 1) ∧
    (s.pending = s.cap → (s.prepared b).readIdx = 0 ∧ (s.prepared b).writeIdx = 1) := by
  have hle : s.pending ≤ s.writeIdx := Nat.sub_le _ _
  have hwc := (cursors_of_inv h.1).2
  have hcursors : (s.prepared b).readIdx = s.madeRoom.readIdx ∧ (s.prepared b).writeIdx = s.madeRoom.writeIdx + 1 := ⟨rfl, rfl⟩
  rcases madeRoom_cases h with ⟨hp, e⟩ | ⟨hw, hp, e⟩ | ⟨hlt, e⟩ <;> rw [e] at hcursors
  · exact ⟨fun _ => by omega, fun _ _ => by omega, fun _ => hcursors⟩
  · exact ⟨fun _ => by omega, fun _ _ => hcursors, fun _ => by omega⟩
  · exact ⟨fun _ => hcursors, fun _ _ => by omega, fun _ => by omega⟩

/-- Settles O25: the skip sets the hint of the prepared state, which has the new byte behind the pending ones. -/
theorem hintSkipAppendsWithoutScanning : Obligations.HintSkipAppendsWithoutScanning := by
  intro s b h hk
  have hframe := prepared_frame h b
  obtain ⟨hbelow, hcompact, hdiscard⟩ := prepared_cursors_cases h b
  have hle : s.pending ≤ s.cap := (Nat.sub_le _ _).trans (cursors_of_inv h.1).2
  have hfull : s.cap ≤ s.pending ↔ s.pending = s.cap := by omega
  have hbytes := prepared_pendingBytes h b
  simp only [length_pendingBytes, hfull] at hbytes
  refine ⟨_, exec_eatByte_of_skip h b hk, rfl, ?_, (prepared_atRest h b).2, (prepared_cursors h b).1, ?_, ?_, rfl, hbytes,
    hbelow, hcompact, hdiscard⟩
  · rw [State.setHint_sink, hframe]
  · rw [State.setHint_cap, hframe]
  · rw [State.setHint_port, hframe]

/-- A single byte, scanned: a selector waits for what its header lacks, any other byte is rejected. -/
theorem scanBytes_singleton (n r : Nat) (b : Byte) :
    scanBytes n r [b] =
      if b = 0x02 then .needMoreBytes 1 else if b = 0x03 then .needMoreBytes 2 else .invalidData .badSelector := by
  split_ifs with h2 h3
  · rw [h2]; rfl
  · rw [h3]; rfl
  · exact scanBytes_of_badSelector n r [] h2 h3

/-- The loop on a single byte at index 0: a selector stays pending, any other byte is dropped and the cursors are reset. -/
theorem scanAll_singleton {s : State} {b : Byte} (h : s.AtRest) (hr : s.readIdx = 0) (hw : s.writeIdx = 1)
    (hb : s.pendingBytes = [b]) :
    s.scanAll = .next (if b = 0x02 then s.setHint 1 else if b = 0x03 then s.setHint 2 else s.setCursors 0 0) := by
  have hp : s.pending = 1 := by rw [State.pending, hr, hw]
  have hinv := setScan_pending_inv h.1 (by omega)
  have honce := scanOnce_eq_respond hinv
  rw [hp] at honce
  have hpend : (s.setScan 1).pendingBytes = [b] := hb
  have hrest : s.setScan 0 = s := by
    rw [← h.2]
    rfl
  rw [hpend, scanBytes_singleton] at honce
  have hwait : ∀ k, (s.setScan 1).waitingFor k = s.setHint k := fun k => by
    conv_rhs => rw [← hrest]
    exact if_neg (show ¬ s.readIdx = s.writeIdx by omega)
  have hdrop : (s.setScan 1).loopAt ((s.setScan 1).readIdx + 1) = s.setCursors 0 0 := by
    conv_rhs => rw [← hrest]
    exact (if_neg (Nat.lt_irrefl 1)).trans (if_pos (show s.readIdx + 1 = s.writeIdx by omega))
  rw [State.scanAll, hp]
  split_ifs at honce ⊢ with h2 h3
  · rw [respond_needMoreBytes, hwait] at honce
    exact runScan_succ_of_next 0 Nat.one_ne_zero honce
  · rw [respond_needMoreBytes, hwait] at honce
    exact runScan_succ_of_next 0 Nat.one_ne_zero honce
  · rw [respond_invalidData, hdrop] at honce
    exact runScan_succ_of_next 0 Nat.one_ne_zero honce

/-- With N bytes pending, E1 to E3 leave the byte alone at index 0. -/
theorem prepared_of_full {s : State} (h : s.AtRest) (hp : s.pending = s.cap) (b : Byte) :
    s.prepared b = { s with buf := bufSet s.buf 0 b, readIdx := 0, writeIdx := 1, result := none } := by
  have hle : s.pending ≤ s.writeIdx := Nat.sub_le _ _
  rcases madeRoom_cases h with ⟨-, e⟩ | ⟨-, hp', -⟩ | ⟨hlt, -⟩
  · rw [State.prepared, e]
    rfl
  · omega
  · omega

/-- Settles O26: the prepared state is skipped or scanned as a single byte. -/
theorem overflowDiscardRestartsWithTheByte : Obligations.OverflowDiscardRestartsWithTheByte := by
  intro s b h hp
  have hprep := prepared_of_full h hp b
  have hbytes := prepared_pendingBytes h b
  rw [length_pendingBytes, if_pos hp.ge] at hbytes
  have hscan := scanAll_singleton (prepared_atRest h b) (by rw [hprep]) (by rw [hprep]) hbytes
  rw [hprep] at hscan
  refine ⟨fun hk => ?_, fun hk hb => ?_, fun hk h2 h3 => ?_⟩
  · rw [exec_eatByte_of_skip h b hk, hprep]
    rfl
  · rw [exec_eatByte_of_scan h b hk, hprep, hscan]
    rcases hb with rfl | rfl <;> rfl
  · rw [exec_eatByte_of_scan h b hk, hprep, hscan, if_neg h2, if_neg h3]
    rfl

/-- Settles O41: after reset the byte is scanned alone at index 0. -/
theorem firstByteAfterReset : Obligations.FirstByteAfterReset := by
  intro n b hn
  have h := resetOf_atRest hn
  have hpos := (cap_pos_of_legal hn).1
  have hcap : (State.resetOf n).cap = n := rfl
  have hprep : (State.resetOf n).prepared b =
      { State.resetOf n with buf := bufSet [] 0 b, writeIdx := 1 } := by
    rcases madeRoom_cases h with ⟨hp, -⟩ | ⟨hw, -⟩ | ⟨-, e⟩
    · rw [hcap, show (State.resetOf n).pending = 0 from rfl] at hp
      omega
    · rw [hcap, show (State.resetOf n).writeIdx = 0 from rfl] at hw
      omega
    · rw [State.prepared, e]
      rfl
  have hbytes := prepared_pendingBytes h b
  rw [show (State.resetOf n).pendingBytes = [] from rfl, ite_self, List.nil_append] at hbytes
  have hscan := scanAll_singleton (prepared_atRest h b) (by rw [hprep]; rfl) (by rw [hprep]) hbytes
  rw [hprep] at hscan
  have hexec := exec_eatByte_of_scan h b (Nat.zero_le 1)
  rw [hprep, hscan] at hexec
  have hread : ∀ t : State, t.cap = n → t.buf = bufSet [] 0 b → t.readByte 0 = .ok b := fun t htcap htbuf =>
    (readByte_eq_ok t 0 b).2 ⟨by omega, by rw [htbuf, bufGet_bufSet_same]⟩
  refine ⟨_, hexec, hread _ ?_ ?_, ?_, ?_, fun h2 h3 => ?_, fun h2 => ?_, fun h3 => ?_⟩
  · split_ifs <;> rfl
  · split_ifs <;> rfl
  · split_ifs <;> rfl
  · split_ifs <;> rfl
  · rw [if_neg h2, if_neg h3]
    exact ⟨rfl, rfl⟩
  · rw [if_pos h2]
    exact ⟨rfl, rfl⟩
  · subst h3
    exact ⟨rfl, rfl⟩

end Sys2Proof.Machine

/-! ### The scan loop as a relation on byte strings (42_ingestion.md R85 to R91) -/

namespace Sys2Proof.Machine

/-- The scan loop without its iteration count: `Drains n q ps r` when scanning the pending bytes `q` hands over `ps` and
leaves `r` waiting (`scanQueue_drains`). -/
inductive Drains (n : Nat) : Bytes → List Bytes → Bytes → Prop
  | wait {q : Bytes} {k : Nat} (h : scanBytes n 0 q = .needMoreBytes k) : Drains n q [] q
  | reject {q r : Bytes} {ps : List Bytes} {c : InvalidCause} (h : scanBytes n 0 q = .invalidData c)
      (rest : Drains n (q.drop 1) ps r) : Drains n q ps r
  | accept {q r : Bytes} {ps : List Bytes} {count lo hi : Nat} (h : scanBytes n 0 q = .consumed count lo hi)
      (rest : Drains n (q.drop count) ps r) : Drains n q ((q.drop lo).take (hi - lo) :: ps) r

theorem Drains.nil (n : Nat) : Drains n [] [] [] := .wait (k := 1) rfl

/-- The pending bytes decide what is handed over and what waits. -/
theorem Drains.unique {n : Nat} {q r r' : Bytes} {ps ps' : List Bytes} (h : Drains n q ps r) (h' : Drains n q ps' r') :
    ps = ps' ∧ r = r' := by
  induction h generalizing ps' with
  | wait h =>
    cases h' with
    | wait => exact ⟨rfl, rfl⟩
    | reject h' => cases h.symm.trans h'
    | accept h' => cases h.symm.trans h'
  | reject h _ ih =>
    cases h' with
    | wait h' => cases h.symm.trans h'
    | reject _ rest' => exact ih rest'
    | accept h' => cases h.symm.trans h'
  | accept h _ ih =>
    cases h' with
    | wait h' => cases h.symm.trans h'
    | reject h' => cases h.symm.trans h'
    | accept h' rest' =>
      cases h.symm.trans h'
      obtain ⟨rfl, rfl⟩ := ih rest'
      exact ⟨rfl, rfl⟩

/-- Scanning before more bytes arrive changes nothing: what is left waiting, scanned with the new bytes, ends as the whole
string does. -/
theorem Drains.append {n : Nat} {q r r' more : Bytes} {ps ps' : List Bytes} (h : Drains n q ps r)
    (h' : Drains n (r ++ more) ps' r') : Drains n (q ++ more) (ps ++ ps') r' := by
  induction h with
  | wait => exact h'
  | @reject q r ps c h _ ih =>
    have hscan : scanBytes n 0 (q ++ more) = .invalidData c :=
      (verdictDoesNotChangeWithMoreBytes n 0 q more fun k hk => by cases h.symm.trans hk).trans h
    refine .reject hscan ?_
    rw [List.drop_append_of_le_length (scanBytes_eq_invalid h)]
    exact ih h'
  | @accept q r ps count lo hi h _ ih =>
    have hscan : scanBytes n 0 (q ++ more) = .consumed count lo hi :=
      (verdictDoesNotChangeWithMoreBytes n 0 q more fun k hk => by cases h.symm.trans hk).trans h
    obtain ⟨-, -, -, hcount, -, hlohi, hhi⟩ := scanBytes_consumed_isFrameOf h
    have hpay : ((q ++ more).drop lo).take (hi - lo) = (q.drop lo).take (hi - lo) :=
      payloadOf_append (hdr := lo) more (by omega)
    rw [List.cons_append, ← hpay]
    refine .accept hscan ?_
    rw [List.drop_append_of_le_length hcount]
    exact ih h'

/-- What waits is no longer than what was scanned. -/
theorem Drains.length_le {n : Nat} {q r : Bytes} {ps : List Bytes} (h : Drains n q ps r) : r.length ≤ q.length := by
  induction h with
  | wait => exact Nat.le_refl _
  | reject _ _ ih =>
    rw [List.length_drop] at ih
    omega
  | accept _ _ ih =>
    rw [List.length_drop] at ih
    omega

/-- Every payload handed over stood in the scanned bytes as a whole frame (60_exceptions.md R124). -/
theorem Drains.mem_isFrameOf {n : Nat} {q r p : Bytes} {ps : List Bytes} (h : Drains n q ps r) (hp : p ∈ ps) :
    ∃ before f behind, q = before ++ f ++ behind ∧ IsFrameOf p f := by
  induction h with
  | wait => cases hp
  | @reject q r ps c h _ ih =>
    obtain ⟨before, f, behind, hq, hf⟩ := ih hp
    refine ⟨q.take 1 ++ before, f, behind, ?_, hf⟩
    rw [List.append_assoc, List.append_assoc, ← List.append_assoc before, ← hq, List.take_append_drop]
  | @accept q r ps count lo hi h _ ih =>
    rcases List.mem_cons.1 hp with rfl | hp
    · obtain ⟨p, hpay, hf, -⟩ := scanBytes_consumed_isFrameOf h
      exact ⟨[], q.take count, q.drop count, by rw [List.nil_append, List.take_append_drop], hpay ▸ hf⟩
    · obtain ⟨before, f, behind, hq, hf⟩ := ih hp
      refine ⟨q.take count ++ before, f, behind, ?_, hf⟩
      rw [List.append_assoc, List.append_assoc, ← List.append_assoc before, ← hq, List.take_append_drop]

/-- Fewer than six bytes hold no frame. -/
theorem Drains.eq_nil_of_short {n : Nat} {q r : Bytes} {ps : List Bytes} (h : Drains n q ps r) (hq : q.length < 6) :
    ps = [] := by
  refine List.eq_nil_iff_forall_not_mem.2 fun p hp => ?_
  obtain ⟨before, f, behind, rfl, hf⟩ := h.mem_isFrameOf hp
  obtain ⟨h1, h2, -⟩ := hf.length_bounds
  simp only [List.length_append] at hq
  omega

/-- A whole frame is handed over and leaves nothing. -/
theorem IsFrameOf.drains {n : Nat} {p f : Bytes} (hf : IsFrameOf p f) (hn : p.length ≤ n) : Drains n f [p] [] := by
  obtain ⟨lo, hi, hscan, hpay⟩ := hf.scanBytes_eq hn []
  rw [List.append_nil] at hscan hpay
  rw [← hpay]
  refine .accept hscan ?_
  rw [List.drop_length]
  exact Drains.nil n

/-- A frame that is not whole waits (41_frame_scanner.md R76: otherwise the verdict would change with the bytes that
follow). -/
theorem IsFrameOf.scanBytes_take {n k : Nat} {p f : Bytes} (hf : IsFrameOf p f) (hn : p.length ≤ n) (hk : k < f.length) :
    ∃ m, scanBytes n 0 (f.take k) = .needMoreBytes m := by
  by_contra hnone
  obtain ⟨lo, hi, hscan, -⟩ := hf.scanBytes_eq hn []
  have hsame := verdictDoesNotChangeWithMoreBytes n 0 (f.take k) (f.drop k) fun m hm => hnone ⟨m, hm⟩
  rw [List.take_append_drop] at hsame
  rw [List.append_nil, hsame] at hscan
  obtain ⟨-, -, -, hcount, -⟩ := scanBytes_consumed_isFrameOf hscan
  rw [List.length_take] at hcount
  omega

/-! #### The queue decoder -/

/-- With an iteration for each byte the loop drains the string, and the count it asks for is that of the bytes left, or 1
when it has dropped them all without asking. -/
theorem scanQueue_drains (n k : Nat) {q : Bytes} (hk : q.length ≤ k) :
    Drains n q (scanQueue n k q).1 (scanQueue n k q).2.1 ∧
      scanBytes n 0 (scanQueue n k q).2.1 = .needMoreBytes ((scanQueue n k q).2.2.getD 1) := by
  induction k generalizing q with
  | zero =>
    obtain rfl := List.eq_nil_of_length_eq_zero (Nat.le_zero.1 hk)
    exact ⟨Drains.nil n, rfl⟩
  | succ k ih =>
    cases hscan : scanBytes n 0 q with
    | needMoreBytes m =>
      simp only [scanQueue, hscan, Option.getD_some]
      exact ⟨.wait hscan, trivial⟩
    | invalidData c =>
      have hlen := scanBytes_eq_invalid hscan
      obtain ⟨hdrain, hhint⟩ := ih (q := q.drop 1) (by rw [List.length_drop]; omega)
      simp only [scanQueue, hscan]
      exact ⟨.reject hscan hdrain, hhint⟩
    | consumed count lo hi =>
      obtain ⟨p, -, hframe, hcount, -⟩ := scanBytes_consumed_isFrameOf hscan
      obtain ⟨-, hpos, -⟩ := hframe.length_bounds
      rw [List.length_take] at hpos
      obtain ⟨hdrain, hhint⟩ := ih (q := q.drop count) (by rw [List.length_drop]; omega)
      simp only [scanQueue, hscan]
      exact ⟨.accept hscan hdrain, hhint⟩

/-- The pending bytes after E1: all dropped when N are pending (42_ingestion.md R81). -/
def afterDiscard (n : Nat) (q : Bytes) : Bytes := if n ≤ q.length then [] else q

theorem afterDiscard_of_lt {n : Nat} {q : Bytes} (h : q.length < n) : afterDiscard n q = q := if_neg (Nat.not_le.2 h)

theorem afterDiscard_of_le {n : Nat} {q : Bytes} (h : n ≤ q.length) : afterDiscard n q = [] := if_pos h

/-- After E1 there is room for a byte. -/
theorem length_afterDiscard (n : Nat) (q : Bytes) :
    (afterDiscard n q).length ≤ q.length ∧ (1 ≤ n → (afterDiscard n q).length + 1 ≤ n) := by
  unfold afterDiscard
  split_ifs with h
  · exact ⟨Nat.zero_le _, id⟩
  · exact ⟨Nat.le_refl _, fun _ => by omega⟩

/-- One byte of the queue decoder: skipped, or scanned with the bytes before it; a scan after a hint of at most 1 leaves the
hint exact. -/
theorem eatQueueWith_cases (skip : Bool) (n : Nat) (q : Bytes) (h : Nat) (b : Byte) :
    (skip = true ∧ 1 < h ∧ eatQueueWith skip n q h b = ([], afterDiscard n q ++ [b], h - 1)) ∨
    (¬ (skip = true ∧ 1 < h) ∧ ∃ ps r h', eatQueueWith skip n q h b = (ps, r, h') ∧
      Drains n (afterDiscard n q ++ [b]) ps r ∧ (h ≤ 1 → scanBytes n 0 r = .needMoreBytes (max h' 1))) := by
  have heq : eatQueueWith skip n q h b =
      if skip = true ∧ 1 < h then ([], afterDiscard n q ++ [b], h - 1)
      else ((scanQueue n (afterDiscard n q ++ [b]).length (afterDiscard n q ++ [b])).1,
        (scanQueue n (afterDiscard n q ++ [b]).length (afterDiscard n q ++ [b])).2.1,
        (scanQueue n (afterDiscard n q ++ [b]).length (afterDiscard n q ++ [b])).2.2.getD h) := rfl
  by_cases hskip : skip = true ∧ 1 < h
  · exact .inl ⟨hskip.1, hskip.2, heq.trans (if_pos hskip)⟩
  · obtain ⟨hdrain, hhint⟩ := scanQueue_drains n _ (Nat.le_refl (afterDiscard n q ++ [b]).length)
    refine .inr ⟨hskip, _, _, _, heq.trans (if_neg hskip), hdrain, fun hle => ?_⟩
    rw [hhint]
    cases hm : (scanQueue n (afterDiscard n q ++ [b]).length (afterDiscard n q ++ [b])).2.2 with
    | none => rw [Option.getD_none, Option.getD_none, max_eq_right hle]
    | some m =>
      rw [hm] at hhint
      have hpos : 1 ≤ m := (scanBytes_eq_needMore hhint).1
      rw [Option.getD_some, Option.getD_some, max_eq_left hpos]

/-- The payloads a byte makes the queue decoder hand over stood, as whole frames, in the bytes after E1 and that byte, and
what is pending then is no longer than these. -/
theorem eatQueueWith_bounds (skip : Bool) (n : Nat) (q : Bytes) (h : Nat) (b : Byte) :
    (∀ p ∈ (eatQueueWith skip n q h b).1, ∃ before f behind,
      afterDiscard n q ++ [b] = before ++ f ++ behind ∧ IsFrameOf p f) ∧
    (eatQueueWith skip n q h b).2.1.length ≤ (afterDiscard n q).length + 1 := by
  rcases eatQueueWith_cases skip n q h b with ⟨-, -, e⟩ | ⟨-, ps, r, h', e, hdrain, -⟩ <;> rw [e]
  · exact ⟨fun p hp => (List.not_mem_nil hp).elim, by simp⟩
  · exact ⟨fun p hp => hdrain.mem_isFrameOf hp, by simpa using hdrain.length_le⟩

/-- Outside overflow an exact hint makes no difference: the byte is scanned or would only have been waited for, and the hint
stays exact (42_ingestion.md R95, R97). -/
theorem eatQueueWith_of_exact {n h : Nat} {q : Bytes} (b : Byte) (hq : q.length < n)
    (hexact : scanBytes n 0 q = .needMoreBytes (max h 1)) :
    ∃ ps r h', eatQueueWith true n q h b = (ps, r, h') ∧ Drains n (q ++ [b]) ps r ∧
      scanBytes n 0 r = .needMoreBytes (max h' 1) := by
  rcases eatQueueWith_cases true n q h b with ⟨-, hh, e⟩ | ⟨hskip, ps, r, h', e, hdrain, hhint⟩ <;>
    rw [afterDiscard_of_lt hq] at *
  · rw [max_eq_left hh.le] at hexact
    have hnext := scanBytes_concat_of_needMore b hexact hh
    exact ⟨_, _, _, e, .wait hnext, by rw [hnext, max_eq_left (by omega)]⟩
  · exact ⟨ps, r, h', e, hdrain, hhint (Nat.le_of_not_lt fun hlt => hskip ⟨rfl, hlt⟩)⟩

/-! #### Streams -/

/-- The queue decoder on a stream: the payloads handed over, the bytes then pending and the hint. -/
def feedQueue (skip : Bool) (n : Nat) : Bytes → Bytes → Nat → List Bytes × Bytes × Nat
  | [], q, h => ([], q, h)
  | b :: bs, q, h =>
    let e := eatQueueWith skip n q h b
    let f := feedQueue skip n bs e.2.1 e.2.2
    (e.1 ++ f.1, f.2)

/-- A stream is taken in one part after the other. -/
theorem feedQueue_append (skip : Bool) (n : Nat) (as bs q : Bytes) (h : Nat) :
    feedQueue skip n (as ++ bs) q h =
      ((feedQueue skip n as q h).1 ++
        (feedQueue skip n bs (feedQueue skip n as q h).2.1 (feedQueue skip n as q h).2.2).1,
       (feedQueue skip n bs (feedQueue skip n as q h).2.1 (feedQueue skip n as q h).2.2).2) := by
  induction as generalizing q h with
  | nil => rfl
  | cons a as ih =>
    rw [List.cons_append, feedQueue, ih]
    simp only [feedQueue, List.append_assoc]

/-- What feeding a stream has made of `s` at its end `t`. -/
structure FeedEnd (s : State) (q : List Bytes × Bytes × Nat) (t : State) : Prop where
  atRest : t.AtRest
  cap_eq : t.cap = s.cap
  sink_eq : t.sink = s.sink ++ q.1
  pendingBytes_eq : t.pendingBytes = q.2.1
  bytesLeft_eq : t.bytesLeft = q.2.2

/-- Feeding a stream at rest completes, and what it does is the queue decoder's. -/
theorem feedWith_feedEnd (skip : Bool) (bs : Bytes) {s : State} (h : s.AtRest) :
    ∃ t, feedWith skip bs s = .next t ∧ FeedEnd s (feedQueue skip s.cap bs s.pendingBytes s.bytesLeft) t := by
  induction bs generalizing s with
  | nil => exact ⟨s, rfl, h, rfl, (List.append_nil _).symm, rfl, rfl⟩
  | cons b bs ih =>
    obtain ⟨u, hu, hend⟩ := eatByteWith_eatEnd h skip b
    obtain ⟨t, ht, hfeed⟩ := ih hend.atRest
    rw [hend.cap_eq, hend.pendingBytes_eq, hend.bytesLeft_eq] at hfeed
    refine ⟨t, ?_, hfeed.atRest, hfeed.cap_eq.trans hend.cap_eq, ?_, hfeed.pendingBytes_eq, hfeed.bytesLeft_eq⟩
    · rw [feedWith, hu]
      exact ht
    · rw [hfeed.sink_eq, hend.sink_eq, List.append_assoc]
      rfl

/-- The machine's EAT_BYTE is the one with the skip. -/
theorem feed_eq_feedWith (bs : Bytes) (s : State) : feed bs s = feedWith true bs s := by
  induction bs generalizing s with
  | nil => rfl
  | cons b bs ih =>
    have hexec : exec (.eatByte b) s = eatByteWith true b s := rfl
    rw [feed, feedWith, hexec]
    cases eatByteWith true b s with
    | next t => exact ih t
    | fault f => rfl
    | refused r => rfl

theorem feed_feedEnd (bs : Bytes) {s : State} (h : s.AtRest) :
    ∃ t, feed bs s = .next t ∧ FeedEnd s (feedQueue true s.cap bs s.pendingBytes s.bytesLeft) t :=
  feed_eq_feedWith bs s ▸ feedWith_feedEnd true bs h

/-- Feeding a new machine, in full. -/
theorem feed_resetOf_feedEnd (bs : Bytes) {n : Nat} (hn : capacityLegal n = true) :
    ∃ t, feed bs (State.resetOf n) = .next t ∧ FeedEnd (State.resetOf n) (feedQueue true n bs [] 0) t :=
  feed_feedEnd bs (resetOf_atRest hn)

/-! #### Soundness of what is handed over -/

/-- Settles O31: what is handed over stood in the bytes that E1 to E3 leave pending, which end the pending bytes and the new
one. -/
theorem emittedPayloadsWereWholeFrames : Obligations.EmittedPayloadsWereWholeFrames := by
  intro s t b h ht
  obtain ⟨u, hu, hend⟩ := exec_eatByte_eatEnd h b
  cases hu.symm.trans ht
  refine ⟨_, hend.sink_eq, fun p hp => ?_⟩
  rw [← eatQueueWith_true] at hp
  obtain ⟨before, f, behind, hbytes, hf⟩ := (eatQueueWith_bounds true s.cap s.pendingBytes s.bytesLeft b).1 p hp
  have hwhole : ∃ front, s.pendingBytes ++ [b] = front ++ (afterDiscard s.cap s.pendingBytes ++ [b]) := by
    unfold afterDiscard
    split_ifs
    · exact ⟨s.pendingBytes, rfl⟩
    · exact ⟨[], rfl⟩
  obtain ⟨front, hfront⟩ := hwhole
  refine ⟨front ++ before, behind, ?_⟩
  rw [hfront, hbytes]
  rcases hf with ⟨h1, h255, rfl⟩ | ⟨h255, hmax, rfl⟩
  · exact .inl ⟨h1, h255, by simp only [List.append_assoc]⟩
  · exact .inr ⟨h255, hmax, by simp only [List.append_assoc]⟩

/-- Every payload handed over in a stream has a frame that fits the buffer. -/
theorem feedQueue_isFrameOf (skip : Bool) {n : Nat} (hn : 1 ≤ n) (bs q : Bytes) (h : Nat) :
    ∀ p ∈ (feedQueue skip n bs q h).1, ∃ f, IsFrameOf p f ∧ f.length ≤ n := by
  induction bs generalizing q h with
  | nil => exact fun p hp => (List.not_mem_nil hp).elim
  | cons b bs ih =>
    intro p hp
    rcases List.mem_append.1 hp with hp | hp
    · obtain ⟨before, f, behind, hbytes, hf⟩ := (eatQueueWith_bounds skip n q h b).1 p hp
      have hlen := congrArg List.length hbytes
      simp only [List.length_append, List.length_singleton] at hlen
      have hroom := (length_afterDiscard n q).2 hn
      exact ⟨f, hf, by omega⟩
    · exact ih _ _ p hp

/-- With N below 6 nothing is handed over (42_ingestion.md R98). -/
theorem feedQueue_of_lt_six (skip : Bool) {n : Nat} (hn : 1 ≤ n) (h6 : n < 6) (bs q : Bytes) (h : Nat) :
    (feedQueue skip n bs q h).1 = [] := by
  refine List.eq_nil_iff_forall_not_mem.2 fun p hp => ?_
  obtain ⟨f, hf, hlen⟩ := feedQueue_isFrameOf skip hn bs q h p hp
  obtain ⟨h1, h2, -⟩ := hf.length_bounds
  omega

/-- Settles O32. -/
theorem onlyFramesThatFitAreReceived : Obligations.OnlyFramesThatFitAreReceived := by
  intro n bs t hn ht
  obtain ⟨u, hu, hend⟩ := feed_resetOf_feedEnd bs hn
  cases hu.symm.trans ht
  have hsink : t.sink = (feedQueue true n bs [] 0).1 := hend.sink_eq.trans (List.nil_append _)
  have hpos := (cap_pos_of_legal hn).1
  rw [hsink]
  refine ⟨fun h6 => feedQueue_of_lt_six true hpos h6 bs [] 0, fun p hp => ?_⟩
  obtain ⟨f, hf, hlen⟩ := feedQueue_isFrameOf true hpos bs [] 0 p hp
  obtain ⟨h1, h2, -, h4⟩ := hf.length_bounds
  exact ⟨h1, by omega, fun h256 => by have := h4 h256; omega⟩

/-! #### Frames that fit are received -/

/-- Up to its last byte a frame only waits, with an exact hint, as long as the buffer holds it. -/
theorem feedQueue_take {n h : Nat} {p f : Bytes} (hf : IsFrameOf p f) (hp : p.length ≤ n) (hh : h ≤ 1) (k : Nat)
    (hk : k < f.length) (hkn : k ≤ n) :
    ∃ h', feedQueue true n (f.take k) [] h = ([], f.take k, h') ∧
      scanBytes n 0 (f.take k) = .needMoreBytes (max h' 1) := by
  induction k with
  | zero => exact ⟨h, rfl, by rw [max_eq_right hh]; rfl⟩
  | succ k ih =>
    obtain ⟨h₁, hfeed, hexact⟩ := ih (by omega) (by omega)
    have htake : f.take (k + 1) = f.take k ++ [f[k]] := (List.take_append_getElem (by omega)).symm
    have hlen : (f.take k).length < n := by rw [List.length_take]; omega
    obtain ⟨ps, r, h₂, heat, hdrain, hexact₂⟩ := eatQueueWith_of_exact f[k] hlen hexact
    obtain ⟨m, hwait⟩ := hf.scanBytes_take hp hk
    rw [← htake] at hdrain
    obtain ⟨rfl, rfl⟩ := (Drains.wait hwait).unique hdrain
    refine ⟨h₂, ?_, hexact₂⟩
    rw [htake, feedQueue_append, hfeed]
    simp only [feedQueue, heat, htake, List.append_nil]

/-- The whole frame is handed over at its last byte, and nothing is pending then. -/
theorem feedQueue_frame {n h : Nat} {p f : Bytes} (hf : IsFrameOf p f) (hn : f.length ≤ n) (hh : h ≤ 1) :
    ∃ h', h' ≤ 1 ∧ feedQueue true n f [] h = ([p], [], h') := by
  obtain ⟨h1, h2, -⟩ := hf.length_bounds
  have hp : p.length ≤ n := by omega
  obtain ⟨h₁, hfeed, hexact⟩ := feedQueue_take hf hp hh (f.length - 1) (by omega) (by omega)
  have hlast : f.take (f.length - 1) ++ [f[f.length - 1]] = f := by
    rw [List.take_append_getElem, show f.length - 1 + 1 = f.length by omega, List.take_length]
  have hlen : (f.take (f.length - 1)).length < n := by rw [List.length_take]; omega
  obtain ⟨ps, r, h₂, heat, hdrain, hexact₂⟩ := eatQueueWith_of_exact f[f.length - 1] hlen hexact
  rw [hlast] at hdrain
  obtain ⟨rfl, rfl⟩ := (hf.drains hp).unique hdrain
  have hone : 1 = max h₂ 1 := ScanOutcome.needMoreBytes.inj hexact₂
  refine ⟨h₂, by omega, ?_⟩
  conv_lhs => rw [← hlast]
  rw [feedQueue_append, hfeed]
  simp only [feedQueue, heat, List.append_nil, List.nil_append]

/-- What COMMIT_FRAME writes for a legal N is a frame of its payload. -/
theorem commitFrameBytes_isFrameOf {n : Nat} {p f : Bytes} (hn : capacityLegal n = true)
    (h : commitFrameBytes n p = some f) : IsFrameOf p f := by
  have hmax := (cap_pos_of_legal hn).2
  unfold commitFrameBytes at h
  split_ifs at h with hshort hlong <;> cases h
  · exact .inl ⟨hshort.1, hshort.2, rfl⟩
  · exact .inr ⟨by omega, by omega, rfl⟩

/-- A payload is shorter than its frame. -/
theorem length_lt_encFrame (p : Bytes) : p.length < (encFrame p).length := by
  unfold encFrame
  split_ifs
  · rw [length_shortFrame]
    omega
  · rw [length_longFrame]
    omega

/-- `ENC(p)`, where it fits a legal N, is a frame of `p`. -/
theorem isFrameOf_encFrame_of_le {n : Nat} {p : Bytes} (hn : capacityLegal n = true) (h1 : 1 ≤ p.length)
    (hp : p.length ≤ n) : IsFrameOf p (encFrame p) :=
  isFrameOf_encFrame h1 (hp.trans (cap_pos_of_legal hn).2)

/-- Nothing is pending exactly when the pending bytes are none. -/
theorem pending_eq_zero_of_nil {s : State} (h : s.pendingBytes = []) : s.pending = 0 := by
  rw [← length_pendingBytes, h, List.length_nil]

/-- Settles O33: before the last byte `feedQueue_take`, at it `feedQueue_frame`. -/
theorem committedFrameIsReceived : Obligations.CommittedFrameIsReceived := by
  intro s p f h hpend hh hcommit hfit
  obtain ⟨⟨-, -, hcap, -⟩, -⟩ := id h
  have hf := commitFrameBytes_isFrameOf hcap hcommit
  obtain ⟨-, h2, -⟩ := hf.length_bounds
  have hnil : s.pendingBytes = [] := List.eq_nil_of_length_eq_zero (by rw [length_pendingBytes, hpend])
  refine ⟨fun k hk => ?_, ?_⟩
  · obtain ⟨u, hu, hend⟩ := feed_feedEnd (f.take k) h
    obtain ⟨h', hfeed, -⟩ := feedQueue_take (n := s.cap) hf (by omega) hh k hk (by omega)
    rw [hnil, hfeed] at hend
    exact ⟨u, hu, hend.sink_eq.trans (List.append_nil _)⟩
  · obtain ⟨t, ht, hend⟩ := feed_feedEnd f h
    obtain ⟨h', -, hfeed⟩ := feedQueue_frame hf hfit hh
    rw [hnil, hfeed] at hend
    exact ⟨t, ht, hend.sink_eq, pending_eq_zero_of_nil hend.pendingBytes_eq⟩

/-- One frame after another, each from an empty buffer. -/
theorem feedQueue_frames {n : Nat} (hn : capacityLegal n = true) (ps : List Bytes)
    (hps : ∀ p ∈ ps, 1 ≤ p.length ∧ (encFrame p).length ≤ n) {h : Nat} (hh : h ≤ 1) :
    ∃ h', feedQueue true n (ps.flatMap encFrame) [] h = (ps, [], h') := by
  induction ps generalizing h with
  | nil => exact ⟨h, rfl⟩
  | cons p ps ih =>
    obtain ⟨h1, hfit⟩ := hps p List.mem_cons_self
    have hlt := length_lt_encFrame p
    obtain ⟨h₁, hh₁, hfeed⟩ := feedQueue_frame (isFrameOf_encFrame_of_le hn h1 (by omega)) hfit hh
    obtain ⟨h₂, hrest⟩ := ih (fun p' hp' => hps p' (List.mem_cons_of_mem _ hp')) hh₁
    refine ⟨h₂, ?_⟩
    rw [List.flatMap_cons, feedQueue_append, hfeed, hrest]
    rfl

/-- Settles O34, by induction over the frames. -/
theorem backToBackFramesAreReceivedInOrder : Obligations.BackToBackFramesAreReceivedInOrder := by
  intro n ps hn hps
  obtain ⟨t, ht, hend⟩ := feed_resetOf_feedEnd (ps.flatMap encFrame) hn
  obtain ⟨h', hfeed⟩ := feedQueue_frames hn ps hps (Nat.zero_le 1)
  rw [hfeed] at hend
  exact ⟨t, ht, hend.sink_eq, pending_eq_zero_of_nil hend.pendingBytes_eq⟩

/-- Bytes that are no selector are dropped one by one, and leave an empty buffer as it was. -/
theorem feedQueue_junk {n : Nat} (hn : 1 ≤ n) (junk : Bytes) (hjunk : ∀ b ∈ junk, b ≠ 0x02 ∧ b ≠ 0x03) {h : Nat} (hh : h ≤ 1) :
    ∃ h', h' ≤ 1 ∧ feedQueue true n junk [] h = ([], [], h') := by
  induction junk generalizing h with
  | nil => exact ⟨h, hh, rfl⟩
  | cons b junk ih =>
    obtain ⟨h2, h3⟩ := hjunk b List.mem_cons_self
    have hexact : scanBytes n 0 [] = .needMoreBytes (max h 1) := by rw [max_eq_right hh]; rfl
    obtain ⟨ps, r, h₁, heat, hdrain, hexact₁⟩ := eatQueueWith_of_exact b hn hexact
    have hdrop : Drains n [b] [] [] := .reject (scanBytes_of_badSelector n 0 [] h2 h3) (Drains.nil n)
    obtain ⟨rfl, rfl⟩ := hdrop.unique hdrain
    have hone : 1 = max h₁ 1 := ScanOutcome.needMoreBytes.inj hexact₁
    obtain ⟨h₂, hh₂, hrest⟩ := ih (fun b' hb' => hjunk b' (List.mem_cons_of_mem _ hb')) (h := h₁) (by omega)
    refine ⟨h₂, hh₂, ?_⟩
    simp only [feedQueue, heat, hrest, List.append_nil]

/-- Settles O35. -/
theorem junkBeforeAFrameIsSkipped : Obligations.JunkBeforeAFrameIsSkipped := by
  intro n junk p hn hjunk h1 hfit
  have hlt := length_lt_encFrame p
  obtain ⟨t, ht, hend⟩ := feed_resetOf_feedEnd (junk ++ encFrame p) hn
  obtain ⟨h₁, hh₁, hskip⟩ := feedQueue_junk (cap_pos_of_legal hn).1 junk hjunk (Nat.zero_le 1)
  obtain ⟨h₂, -, hfeed⟩ := feedQueue_frame (isFrameOf_encFrame_of_le hn h1 (by omega)) hfit hh₁
  rw [feedQueue_append, hskip, hfeed] at hend
  exact ⟨t, ht, hend.sink_eq, pending_eq_zero_of_nil hend.pendingBytes_eq⟩

/-- A stream that, with the bytes E1 leaves, has fewer than six bytes hands nothing over. -/
theorem feedQueue_of_short (skip : Bool) (n : Nat) (bs q : Bytes) (h : Nat)
    (hshort : (afterDiscard n q).length + bs.length < 6) : (feedQueue skip n bs q h).1 = [] := by
  induction bs generalizing q h with
  | nil => rfl
  | cons b bs ih =>
    rw [List.length_cons] at hshort
    obtain ⟨hframes, hlen⟩ := eatQueueWith_bounds skip n q h b
    have hnone : (eatQueueWith skip n q h b).1 = [] := by
      refine List.eq_nil_iff_forall_not_mem.2 fun p hp => ?_
      obtain ⟨before, f, behind, hbytes, hf⟩ := hframes p hp
      obtain ⟨h1, h2, -⟩ := hf.length_bounds
      have hlen := congrArg List.length hbytes
      simp only [List.length_append, List.length_singleton] at hlen
      omega
    have hdiscard := (length_afterDiscard n (eatQueueWith skip n q h b).2.1).1
    rw [feedQueue, hnone]
    exact ih _ _ (by omega)

/-- Settles O36: after N bytes of the frame the buffer is full, the discard drops them, and at most five bytes follow. -/
theorem frameJustTooLongForTheBufferIsLost : Obligations.FrameJustTooLongForTheBufferIsLost := by
  intro n p hn h1 hp hlong hmax
  obtain ⟨t, ht, hend⟩ := feed_resetOf_feedEnd (encFrame p) hn
  refine ⟨t, ht, hend.sink_eq.trans ((List.nil_append _).trans ?_)⟩
  obtain ⟨h', hfeed, -⟩ := feedQueue_take (isFrameOf_encFrame_of_le hn h1 hp) hp (Nat.zero_le 1) n hlong (Nat.le_refl n)
  have hfull : afterDiscard n ((encFrame p).take n) = [] := afterDiscard_of_le (by rw [List.length_take]; omega)
  rw [← List.take_append_drop n (encFrame p), feedQueue_append, hfeed]
  refine feedQueue_of_short true n _ _ _ ?_
  rw [hfull, List.length_drop, List.length_nil]
  omega

end Sys2Proof.Machine

/-! ### What cannot be seen at the output: the hint, the buffer's layout, the past before RESET (42_ingestion.md R95, R97;
20_memory.md R38; 70_reset_and_hazards.md R131) -/

namespace Sys2Proof.Machine

/-! #### The hint -/

/-- Settles O39: a new machine's hint, read as 1, is what the scanner asks for without a byte, and outside overflow
`eatQueueWith_of_exact` keeps the hint exact. -/
theorem hintStaysExactWithoutOverflow : Obligations.HintStaysExactWithoutOverflow := by
  refine ⟨fun n => rfl, fun s t b h hroom hexact ht => ?_⟩
  obtain ⟨u, hu, hend⟩ := exec_eatByte_eatEnd h b
  cases hu.symm.trans ht
  have hshift : ∀ (n r k : Nat) (bs : Bytes), scanBytes n r bs = .needMoreBytes k ↔ scanBytes n 0 bs = .needMoreBytes k := by
    intro n r k bs
    rw [scanBytes_shift]
    cases scanBytes n 0 bs <;> simp [ScanOutcome.shift]
  rw [hshift] at hexact ⊢
  obtain ⟨ps, r, h', heat, -, hexact'⟩ :=
    eatQueueWith_of_exact b (show s.pendingBytes.length < s.cap by rwa [length_pendingBytes]) hexact
  rw [← eatQueueWith_true, heat] at hend
  rw [hend.cap_eq, hend.pendingBytes_eq, State.hint, hend.bytesLeft_eq]
  exact hexact'

/-- With the header present the count completes a frame of at most N + 6 bytes. -/
theorem length_add_needMore_le {n k : Nat} {bs : Bytes} (h : scanBytes n 0 bs = .needMoreBytes k) (hlen : 3 ≤ bs.length) :
    bs.length + k ≤ n + 6 := by
  have body : ∀ hdr len, hdr ≤ 3 → judgeBody n 0 hdr len bs = .needMoreBytes k → bs.length + k ≤ n + 6 := by
    intro hdr len hhdr hb
    rcases judgeBody_cases n 0 hdr len bs with ⟨-, e⟩ | ⟨hcap, hlt, e⟩ | ⟨-, -, -, e⟩ | ⟨-, -, -, -, e⟩ | ⟨-, -, -, -, e⟩ <;>
      rw [hb] at e <;> cases e
    unfold totalLen at *
    omega
  rcases scanBytes_cases n 0 bs with ⟨j, -, -, -, hshort, -⟩ | ⟨l, rest, -, ⟨-, e⟩ | ⟨-, e⟩⟩ |
    ⟨a, l, rest, -, ⟨-, e⟩ | ⟨-, e⟩⟩ | ⟨sel, rest, -, -, -, e⟩
  · omega
  · cases h.symm.trans e
  · exact body 2 _ (by decide) (e.symm.trans h)
  · cases h.symm.trans e
  · exact body 3 _ (Nat.le_refl 3) (e.symm.trans h)
  · cases h.symm.trans e

/-- How the decoder that skips, with `q` pending and the hint `h`, goes along with the decoder that always scans, with `q₂`
pending: they hold the same bytes and the hint is exact; or, after an overflow discard, the one has yet to scan bytes that
the other has scanned without handing anything over, and will do so while they are at most six. -/
def SkipAlong (n : Nat) (q : Bytes) (h : Nat) (q₂ : Bytes) : Prop :=
  (q = q₂ ∧ scanBytes n 0 q = .needMoreBytes (max h 1)) ∨ (Drains n q [] q₂ ∧ 1 ≤ h ∧ q.length + h ≤ 6)

/-- The decoder that always scans drains the bytes after E1 and the new one. -/
theorem eatQueueWith_false (n : Nat) (q : Bytes) (h : Nat) (b : Byte) :
    ∃ ps r h', eatQueueWith false n q h b = (ps, r, h') ∧ Drains n (afterDiscard n q ++ [b]) ps r := by
  rcases eatQueueWith_cases false n q h b with ⟨hfalse, -⟩ | ⟨-, ps, r, h', e, hdrain, -⟩
  · cases hfalse
  · exact ⟨ps, r, h', e, hdrain⟩

/-- For the byte `b` both decoders hand over the same, and go along with each other again. -/
def StepsAlong (n : Nat) (q : Bytes) (h : Nat) (q₂ : Bytes) (h₂ : Nat) (b : Byte) : Prop :=
  (eatQueueWith true n q h b).1 = (eatQueueWith false n q₂ h₂ b).1 ∧
  SkipAlong n (eatQueueWith true n q h b).2.1 (eatQueueWith true n q h b).2.2 (eatQueueWith false n q₂ h₂ b).2.1

/-- From the same bytes and an exact hint: outside overflow both scan or only wait; in overflow the skip leaves the new byte
unscanned, and the count, at most 6, says how many bytes are skipped with it. -/
theorem stepsAlong_of_exact {n h : Nat} {q : Bytes} (hn : 6 ≤ n) (hexact : scanBytes n 0 q = .needMoreBytes (max h 1))
    (h₂ : Nat) (b : Byte) : StepsAlong n q h q h₂ b := by
  obtain ⟨ps₂, r₂, h₂', e₂, hdrain₂⟩ := eatQueueWith_false n q h₂ b
  rw [StepsAlong, e₂]
  rcases Nat.lt_or_ge q.length n with hlt | hge
  · obtain ⟨ps, r, h', e, hdrain, hexact'⟩ := eatQueueWith_of_exact b hlt hexact
    rw [afterDiscard_of_lt hlt] at hdrain₂
    obtain ⟨rfl, rfl⟩ := hdrain.unique hdrain₂
    rw [e]
    exact ⟨rfl, .inl ⟨rfl, hexact'⟩⟩
  · rcases eatQueueWith_cases true n q h b with ⟨-, hh, e⟩ | ⟨hskip, ps, r, h', e, hdrain, hhint⟩ <;> rw [e]
    · have hbound := length_add_needMore_le hexact (by omega)
      rw [max_eq_left hh.le] at hbound
      rw [afterDiscard_of_le hge] at hdrain₂ ⊢
      obtain rfl := hdrain₂.eq_nil_of_short (by simp)
      refine ⟨rfl, .inr ⟨hdrain₂, show 1 ≤ h - 1 by omega, ?_⟩⟩
      change 1 + (h - 1) ≤ 6
      omega
    · obtain ⟨rfl, rfl⟩ := hdrain.unique hdrain₂
      exact ⟨rfl, .inl ⟨rfl, hhint (Nat.le_of_not_lt fun hlt => hskip ⟨rfl, hlt⟩)⟩⟩

/-- With unscanned bytes after a discard: what is skipped is too short to hold a frame, and the scan at the hint's end makes
up for all of it (`Drains.append`). -/
theorem stepsAlong_of_unscanned {n h : Nat} {q q₂ : Bytes} (hn : 6 ≤ n) (hdrain : Drains n q [] q₂) (h1 : 1 ≤ h)
    (h6 : q.length + h ≤ 6) (h₂ : Nat) (b : Byte) : StepsAlong n q h q₂ h₂ b := by
  obtain ⟨ps₂, r₂, h₂', e₂, hdrain₂⟩ := eatQueueWith_false n q₂ h₂ b
  have hle := hdrain.length_le
  have hq : afterDiscard n q = q := afterDiscard_of_lt (by omega)
  rw [afterDiscard_of_lt (show q₂.length < n by omega)] at hdrain₂
  have hall : Drains n (q ++ [b]) ps₂ r₂ := hdrain.append hdrain₂
  rw [StepsAlong, e₂]
  rcases eatQueueWith_cases true n q h b with ⟨-, hh, e⟩ | ⟨hskip, ps, r, h', e, hdrain', hhint⟩ <;> rw [e]
  · rw [hq]
    obtain rfl := hdrain₂.eq_nil_of_short (by rw [List.length_append, List.length_singleton]; omega)
    refine ⟨rfl, .inr ⟨hall, show 1 ≤ h - 1 by omega, ?_⟩⟩
    change (q ++ [b]).length + (h - 1) ≤ 6
    rw [List.length_append, List.length_singleton]
    omega
  · rw [hq] at hdrain'
    obtain ⟨rfl, rfl⟩ := hdrain'.unique hall
    exact ⟨rfl, .inl ⟨rfl, hhint (Nat.le_of_not_lt fun hlt => hskip ⟨rfl, hlt⟩)⟩⟩

/-- With N at least 6 the decoders go along with each other byte by byte. -/
theorem SkipAlong.step {n h : Nat} {q q₂ : Bytes} (hn : 6 ≤ n) (hR : SkipAlong n q h q₂) (h₂ : Nat) (b : Byte) :
    StepsAlong n q h q₂ h₂ b := by
  rcases hR with ⟨rfl, hexact⟩ | ⟨hdrain, h1, h6⟩
  · exact stepsAlong_of_exact hn hexact h₂ b
  · exact stepsAlong_of_unscanned hn hdrain h1 h6 h₂ b

/-- So they hand over the same for every stream. -/
theorem SkipAlong.feedQueue_eq {n h : Nat} {q q₂ : Bytes} (hn : 6 ≤ n) (hR : SkipAlong n q h q₂) (h₂ : Nat) (bs : Bytes) :
    (feedQueue true n bs q h).1 = (feedQueue false n bs q₂ h₂).1 := by
  induction bs generalizing q h q₂ h₂ with
  | nil => rfl
  | cons b bs ih =>
    obtain ⟨hsame, hR'⟩ := hR.step hn h₂ b
    rw [feedQueue, feedQueue, hsame, ih hR']

/-- Settles O38: with N below 6 neither decoder hands anything over, with N at least 6 they go along with each other. -/
theorem hintSkipCannotBeSeen : Obligations.HintSkipCannotBeSeen := by
  intro n bs hn
  obtain ⟨t, ht, htend⟩ := feedWith_feedEnd true bs (resetOf_atRest hn)
  obtain ⟨u, hu, huend⟩ := feedWith_feedEnd false bs (resetOf_atRest hn)
  refine ⟨t, u, ht, hu, htend.sink_eq.trans (Eq.trans ?_ huend.sink_eq.symm)⟩
  congr 1
  change (feedQueue true n bs [] 0).1 = (feedQueue false n bs [] 0).1
  rcases Nat.lt_or_ge n 6 with h6 | h6
  · have hpos := (cap_pos_of_legal hn).1
    rw [feedQueue_of_lt_six true hpos h6, feedQueue_of_lt_six false hpos h6]
  · exact SkipAlong.feedQueue_eq h6 (.inl ⟨rfl, rfl⟩) 0 bs

/-! #### Stale bytes, buffer positions and the past -/

/-- Settles O40: N, the pending bytes and the hint are all that the queue decoder has. -/
theorem staleBytesNeverReachTheOutput : Obligations.StaleBytesNeverReachTheOutput := by
  intro s₁ s₂ bs h₁ h₂ hcap hhint hbytes
  obtain ⟨t₁, ht₁, hend₁⟩ := feed_feedEnd bs h₁
  obtain ⟨t₂, ht₂, hend₂⟩ := feed_feedEnd bs h₂
  rw [hcap, hhint, hbytes] at hend₁
  exact ⟨t₁, t₂, _, ht₁, ht₂, hend₁.sink_eq, hend₂.sink_eq, hend₁.pendingBytes_eq.trans hend₂.pendingBytes_eq.symm,
    hend₁.bytesLeft_eq.trans hend₂.bytesLeft_eq.symm⟩

/-- Two states that differ in stale bytes, the sink and the port at most. -/
def SameView (s₁ s₂ : State) : Prop :=
  s₁.cap = s₂.cap ∧ s₁.writeIdx = s₂.writeIdx ∧ s₁.bytesLeft = s₂.bytesLeft ∧ s₁.pendingBytes = s₂.pendingBytes

theorem SameView.pending_eq {s₁ s₂ : State} (h : SameView s₁ s₂) : s₁.pending = s₂.pending := by
  obtain ⟨-, -, -, hbytes⟩ := h
  rw [← length_pendingBytes, hbytes, length_pendingBytes]

theorem SameView.readIdx_eq {s₁ s₂ : State} (h : SameView s₁ s₂) (h₁ : s₁.Inv) (h₂ : s₂.Inv) : s₁.readIdx = s₂.readIdx := by
  have hpend := h.pending_eq
  obtain ⟨-, hwrite, -⟩ := h
  have hrw₁ := (cursors_of_inv h₁).1
  have hrw₂ := (cursors_of_inv h₂).1
  unfold State.pending at hpend
  omega

/-- Where E1 and E2 put the write cursor depends on N, the write cursor and the number of pending bytes. -/
theorem madeRoom_writeIdx {s : State} (h : s.AtRest) :
    s.madeRoom.writeIdx = if s.pending = s.cap then 0 else if s.writeIdx = s.cap then s.pending else s.writeIdx := by
  have hle : s.pending ≤ s.writeIdx := Nat.sub_le _ _
  rcases madeRoom_cases h with ⟨hp, e⟩ | ⟨hw, hp, e⟩ | ⟨hlt, e⟩ <;> rw [e]
  · rw [if_pos hp]
    rfl
  · rw [if_neg hp.ne, if_pos hw]
    rfl
  · rw [if_neg (by omega), if_neg hlt.ne]

/-- The write cursor after EAT_BYTE: behind the new byte, or 0 with nothing pending. -/
theorem EatEnd.writeIdx_eq {s t : State} {q : List Bytes × Bytes × Nat} (h : EatEnd s q t) :
    t.writeIdx = if t.pending = 0 then 0 else s.madeRoom.writeIdx + 1 := by
  split_ifs with hp
  · exact (writeIdx_of_atRest h.atRest hp).2
  · exact h.writeIdx_cases.resolve_left hp

theorem SameView.eatEnd {s₁ s₂ t₁ t₂ : State} {b : Byte} (h : SameView s₁ s₂) (h₁ : s₁.AtRest) (h₂ : s₂.AtRest)
    (hend₁ : EatEnd s₁ (eatQueue s₁.cap s₁.pendingBytes s₁.bytesLeft b) t₁)
    (hend₂ : EatEnd s₂ (eatQueue s₂.cap s₂.pendingBytes s₂.bytesLeft b) t₂) : SameView t₁ t₂ := by
  have hpend := h.pending_eq
  obtain ⟨hcap, hwrite, hhint, hbytes⟩ := h
  have hroom : s₁.madeRoom.writeIdx = s₂.madeRoom.writeIdx := by
    rw [madeRoom_writeIdx h₁, madeRoom_writeIdx h₂, hpend, hcap, hwrite]
  rw [hcap, hhint, hbytes] at hend₁
  have hbytes' := hend₁.pendingBytes_eq.trans hend₂.pendingBytes_eq.symm
  have hpend' : t₁.pending = t₂.pending := by rw [← length_pendingBytes, hbytes', length_pendingBytes]
  refine ⟨?_, ?_, hend₁.bytesLeft_eq.trans hend₂.bytesLeft_eq.symm, hbytes'⟩
  · rw [hend₁.cap_eq, hend₂.cap_eq, hcap]
  · rw [hend₁.writeIdx_eq, hend₂.writeIdx_eq, hroom, hpend']

/-- Such states stay so along every stream. -/
theorem SameView.feed {s₁ s₂ : State} (h : SameView s₁ s₂) (h₁ : s₁.AtRest) (h₂ : s₂.AtRest) (bs : Bytes) :
    ∃ t₁ t₂, feed bs s₁ = .next t₁ ∧ feed bs s₂ = .next t₂ ∧ SameView t₁ t₂ := by
  induction bs generalizing s₁ s₂ with
  | nil => exact ⟨s₁, s₂, rfl, rfl, h⟩
  | cons b bs ih =>
    obtain ⟨u₁, hu₁, hend₁⟩ := exec_eatByte_eatEnd h₁ b
    obtain ⟨u₂, hu₂, hend₂⟩ := exec_eatByte_eatEnd h₂ b
    obtain ⟨t₁, t₂, ht₁, ht₂, hview⟩ := ih (h.eatEnd h₁ h₂ hend₁ hend₂) hend₁.atRest hend₂.atRest
    refine ⟨t₁, t₂, ?_, ?_, hview⟩
    · rw [Machine.feed, hu₁]
      exact ht₁
    · rw [Machine.feed, hu₂]
      exact ht₂

/-- Settles O43: after RESET nothing is pending, so a new machine of the same N differs in stale bytes, sink and port at
most. -/
theorem resetForgetsTheStream : Obligations.ResetForgetsTheStream := by
  intro s r bs h hreset
  obtain ⟨r', hr', hrest⟩ := exec_reset_atRest h
  cases hr'.symm.trans hreset
  obtain ⟨-, -, hcap, -⟩ := id h
  have hnew := resetOf_atRest hcap
  have hfields : r = { s with readIdx := 0, writeIdx := 0, bytesLeft := 0, scanLeft := 0, result := none } := by
    cases hreset
    rfl
  have hview : SameView r (State.resetOf s.cap) := by
    rw [hfields]
    exact ⟨rfl, rfl, rfl, rfl⟩
  have hsink : r.sink = s.sink := by rw [hfields]
  obtain ⟨t, u, ht, hu, hview'⟩ := hview.feed hrest hnew bs
  obtain ⟨t', ht', hend₁⟩ := feed_feedEnd bs hrest
  obtain ⟨u', hu', hend₂⟩ := feed_feedEnd bs hnew
  cases ht'.symm.trans ht
  cases hu'.symm.trans hu
  have hread := hview'.readIdx_eq hend₁.atRest.1 hend₂.atRest.1
  obtain ⟨-, hwrite, hhint, -⟩ := hview'
  refine ⟨hsink, t, u, ht, hu, ?_, hread, hwrite, hhint⟩
  obtain ⟨hcap', -, hhint', hbytes'⟩ := hview
  rw [hend₁.sink_eq, hend₂.sink_eq, hsink, hcap', hhint', hbytes']
  rfl

/-! #### A frame inside a frame (log entry 12) -/

/-- A payload of 20 bytes that begins with the whole frame of the payload `41` (95_test_vectors.md V82). -/
def nestedPayload : Bytes := [0x02, 0x01, 0x41, 0x58, 0xE5, 0x03] ++ List.replicate 14 0xAA

/-- With N = 16 the queue decoder rejects the outer frame by its length and receives the inner one (42_ingestion.md R87,
R88). -/
theorem feedQueue_nestedPayload : (feedQueue true 16 (shortFrame nestedPayload) [] 0).1 = [[0x41]] := by decide +kernel

/-- Refutes O37: the frame of `nestedPayload` has 25 bytes, more than N = 16, and its inner frame is handed over. -/
theorem not_everyFrameLongerThanTheBufferEmitsNothing : ¬ Obligations.EveryFrameLongerThanTheBufferEmitsNothing := by
  intro h
  obtain ⟨t, ht, hend⟩ := feed_resetOf_feedEnd (shortFrame nestedPayload) (n := 16) rfl
  have hcommit : commitFrameBytes 16 nestedPayload = some (shortFrame nestedPayload) := rfl
  have hlong : 16 < (shortFrame nestedPayload).length := by rw [length_shortFrame]; decide
  have hsink := hend.sink_eq
  rw [feedQueue_nestedPayload, h 16 nestedPayload _ t rfl hcommit hlong ht] at hsink
  cases hsink

end Sys2Proof.Machine

/-! ### COMMIT_FRAME (43_encoder.md R102 to R105) -/

namespace Sys2Proof.Machine

/-! #### The length check and the space check -/

theorem exec_commitFrame {n : Nat} (hn : capacityLegal n = true) (p dest : Bytes) (s : State) :
    exec (.commitFrame p dest n) s = .next { s with result := some (commitFrame n p dest) } := if_pos hn

theorem commitFrameBytes_of_short {n : Nat} {p : Bytes} (h1 : 1 ≤ p.length) (h255 : p.length ≤ 255) :
    commitFrameBytes n p = some (shortFrame p) := if_pos ⟨h1, h255⟩

theorem commitFrameBytes_of_long {n : Nat} {p : Bytes} (h256 : 256 ≤ p.length) (hn : p.length ≤ n) :
    commitFrameBytes n p = some (longFrame p) :=
  (if_neg fun h => by omega).trans (if_pos ⟨h256, hn⟩)

/-- An empty payload and a LONG one above N are unsupported. -/
theorem commitFrameBytes_of_unsupported {n : Nat} {p : Bytes} (h : p.length = 0 ∨ (256 ≤ p.length ∧ n < p.length)) :
    commitFrameBytes n p = none :=
  (if_neg fun hs => by omega).trans (if_neg fun hl => by omega)

theorem commitFrame_of_none {n : Nat} {p : Bytes} (dest : Bytes) (h : commitFrameBytes n p = none) :
    commitFrame n p dest = .commitError .invalidLength dest := by
  rw [commitFrame, h]

theorem commitFrame_of_lt {n : Nat} {p f dest : Bytes} (h : commitFrameBytes n p = some f) (hlt : dest.length < f.length) :
    commitFrame n p dest = .commitError .notEnoughSpace dest := by
  rw [commitFrame, h]
  exact if_pos hlt

theorem commitFrame_of_le {n : Nat} {p f dest : Bytes} (h : commitFrameBytes n p = some f) (hle : f.length ≤ dest.length) :
    commitFrame n p dest = .committed (overwrite f dest) := by
  rw [commitFrame, h]
  exact if_neg (Nat.not_lt.2 hle)

/-- Settles O46: the length check comes first, the space check second. -/
theorem commitFrameErrorsLeaveTheDestination : Obligations.CommitFrameErrorsLeaveTheDestination := by
  intro s p dest n hn
  rw [exec_commitFrame hn]
  refine ⟨fun hbad => ?_, fun h1 h255 hspace => ?_, fun h256 hcap hspace => ?_⟩
  · rw [commitFrame_of_none dest (commitFrameBytes_of_unsupported hbad)]
  · rw [commitFrame_of_lt (commitFrameBytes_of_short h1 h255) (by rwa [length_shortFrame])]
  · rw [commitFrame_of_lt (commitFrameBytes_of_long h256 hcap) (by rwa [length_longFrame])]

/-! #### The bytes written -/

theorem length_overwrite {f dest : Bytes} (h : f.length ≤ dest.length) : (overwrite f dest).length = dest.length := by
  rw [overwrite, List.length_append, List.length_drop]
  omega

/-- The frame's bytes stand at its offsets. -/
theorem getElem?_overwrite_of_lt {f : Bytes} (dest : Bytes) {k : Nat} (h : k < f.length) : (overwrite f dest)[k]? = f[k]? :=
  List.getElem?_append_left h

/-- Behind the frame the destination keeps its bytes. -/
theorem getElem?_overwrite_of_le {f : Bytes} (dest : Bytes) {k : Nat} (h : f.length ≤ k) : (overwrite f dest)[k]? = dest[k]? := by
  rw [overwrite, List.getElem?_append_right h, List.getElem?_drop, Nat.add_sub_cancel' h]

theorem highByte_eq_ofNat (v : Half) : highByte v = BitVec.ofNat 8 (v.toNat / 256) := by
  apply BitVec.eq_of_toNat_eq
  rw [highByte, BitVec.extractLsb'_toNat, BitVec.toNat_ofNat, Nat.shiftRight_eq_div_pow]

theorem lowByte_eq_ofNat (v : Half) : lowByte v = BitVec.ofNat 8 v.toNat := by
  apply BitVec.eq_of_toNat_eq
  rw [lowByte, BitVec.extractLsb'_toNat, BitVec.toNat_ofNat, Nat.shiftRight_zero]

/-- Payload, CRC field and terminator behind a header of `hb.length` bytes (30_encoding.md R42, R43). -/
theorem getElem?_frameTail (hb p : Bytes) :
    (∀ k, k < p.length → (hb ++ frameTail p)[hb.length + k]? = p[k]?) ∧
    (hb ++ frameTail p)[hb.length + p.length]? = some (BitVec.ofNat 8 ((crc16 p).toNat / 256)) ∧
    (hb ++ frameTail p)[hb.length + p.length + 1]? = some (BitVec.ofNat 8 (crc16 p).toNat) ∧
    (hb ++ frameTail p)[hb.length + p.length + 2]? = some 0x03 := by
  have hbehind : ∀ k, (hb ++ frameTail p)[hb.length + p.length + k]? =
      [highByte (crc16 p), lowByte (crc16 p), Config.terminator][k]? := by
    intro k
    rw [frameTail, List.getElem?_append_right (by omega), List.getElem?_append_right (by omega)]
    congr 1
    omega
  refine ⟨fun k hk => ?_, ?_, ?_, hbehind 2⟩
  · rw [frameTail, List.getElem?_append_right (by omega), List.getElem?_append_left (by omega), Nat.add_sub_cancel_left]
  · rw [← highByte_eq_ofNat]
    exact hbehind 0
  · rw [← lowByte_eq_ofNat]
    exact hbehind 1

/-- A LONG header is the selector and the length's two bytes, the high one first. -/
theorem longHeader_ofNat {len : Nat} (h : len ≤ 65535) :
    longHeader (BitVec.ofNat 16 len) = [0x03, BitVec.ofNat 8 (len / 256), BitVec.ofNat 8 len] := by
  have hval : (BitVec.ofNat 16 len).toNat = len := by rw [BitVec.toNat_ofNat]; omega
  rw [longHeader, highByte_eq_ofNat, lowByte_eq_ofNat, hval, Config.selLong]

/-- Settles O45: the destination is the frame and its own bytes behind it, and the frame is its header and `frameTail`. -/
theorem commitFrameWritesTheFrame : Obligations.CommitFrameWritesTheFrame := by
  intro s p dest n hn
  have hmax := (cap_pos_of_legal hn).2
  rw [exec_commitFrame hn]
  refine ⟨fun h1 h255 hspace => ?_, fun h256 hcap hspace => ?_⟩
  · have hlen := length_shortFrame p
    rw [commitFrame_of_le (commitFrameBytes_of_short h1 h255) (by omega)]
    obtain ⟨hpay, hhigh, hlow, hterm⟩ := getElem?_frameTail (shortHeader (BitVec.ofNat 8 p.length)) p
    have hat : ∀ k, k < p.length + 5 → (overwrite (shortFrame p) dest)[k]? = (shortFrame p)[k]? := fun k hk =>
      getElem?_overwrite_of_lt dest (by omega)
    refine ⟨_, rfl, length_overwrite (by omega), (hat 0 (by omega)).trans rfl, (hat 1 (by omega)).trans rfl,
      fun k hk => (hat _ (by omega)).trans (hpay k hk), (hat _ (by omega)).trans hhigh, ?_, ?_,
      fun k hk => getElem?_overwrite_of_le dest (by omega)⟩
    · rw [hat _ (by omega), Nat.add_right_comm 2 1]
      exact hlow
    · rw [hat _ (by omega), Nat.add_right_comm 2 2]
      exact hterm
  · have hlen := length_longFrame p
    rw [commitFrame_of_le (commitFrameBytes_of_long h256 hcap) (by omega)]
    obtain ⟨hpay, hhigh, hlow, hterm⟩ := getElem?_frameTail (longHeader (BitVec.ofNat 16 p.length)) p
    have hat : ∀ k, k < p.length + 6 → (overwrite (longFrame p) dest)[k]? = (longFrame p)[k]? := fun k hk =>
      getElem?_overwrite_of_lt dest (by omega)
    have hfields : (longFrame p)[1]? = some (BitVec.ofNat 8 (p.length / 256)) ∧
        (longFrame p)[2]? = some (BitVec.ofNat 8 p.length) := by
      rw [longFrame, longHeader_ofNat (by omega)]
      exact ⟨rfl, rfl⟩
    refine ⟨_, rfl, length_overwrite (by omega), (hat 0 (by omega)).trans rfl, (hat 1 (by omega)).trans hfields.1,
      (hat 2 (by omega)).trans hfields.2, fun k hk => (hat _ (by omega)).trans (hpay k hk),
      (hat _ (by omega)).trans hhigh, ?_, ?_, fun k hk => getElem?_overwrite_of_le dest (by omega)⟩
    · rw [hat _ (by omega), Nat.add_right_comm 3 1]
      exact hlow
    · rw [hat _ (by omega), Nat.add_right_comm 3 2]
      exact hterm

/-- Where SIZE_HINT answers a size, it is the length of the frame COMMIT_FRAME writes. -/
theorem length_commitFrameBytes_eq_size {n size : Nat} {p : Bytes} (h1 : 1 ≤ p.length) (hn : p.length ≤ 255 ∨ p.length ≤ n)
    (hsize : sizeHint p.length = .size size) : ∃ f, commitFrameBytes n p = some f ∧ f.length = size := by
  rcases Nat.lt_or_ge 255 p.length with hlong | hshort
  · have h512 : p.length ≤ 512 := by
      by_contra hbig
      rw [sizeHint_of_tooBig (by omega)] at hsize
      cases hsize
    rw [sizeHint_of_long hlong h512] at hsize
    exact ⟨_, commitFrameBytes_of_long hlong (by omega), (length_longFrame p).trans (OpResult.size.inj hsize)⟩
  · rw [sizeHint_of_short hshort] at hsize
    exact ⟨_, commitFrameBytes_of_short h1 hshort, (length_shortFrame p).trans (OpResult.size.inj hsize)⟩

/-- Settles O47: the space check compares with the length of the frame, which is the reported size. -/
theorem sizeHintIsTheLeastDestination : Obligations.SizeHintIsTheLeastDestination := by
  intro s p n size hn h1 hsupported hexec
  rw [exec_sizeHint] at hexec
  have hresult := congrArg State.result (Host.Outcome.next.inj hexec)
  obtain ⟨f, hcommit, rfl⟩ := length_commitFrameBytes_eq_size (n := n) h1 hsupported (Option.some.inj hresult)
  refine ⟨fun dest hlt => ?_, fun dest hle => ⟨overwrite f dest, ?_, length_overwrite hle⟩⟩
  · rw [exec_commitFrame hn, commitFrame_of_lt hcommit hlt]
  · rw [exec_commitFrame hn, commitFrame_of_le hcommit hle]

end Sys2Proof.Machine
